-- ==== Sys2Proof/Word.lean ====
section
/-!
DEFINITION. The word types of the block and nothing else: every channel, operand and CM lane is one 64-bit word
(`00_scope.md` R6, `20_memory.md` R53), a slot of the DX buffer has 31 bits (`10_state.md` R26), the PCG64 registers 128
(`10_state.md` R29), and `IMM16`, `DX_KK`, `DX_SS` and `DX_CUR` 16 (`30_encoding.md` R71, `10_state.md` R24, R25).
-/

namespace Sys2Proof

/-- A word of every channel, and every operand (R6, `W` = 64). -/
abbrev Word := BitVec 64

/-- A byte of a transport that carries words as bytes (R53). -/
abbrev Octet := BitVec 8

/-- One slot of the DX state buffer, and `DX_BB` and `DX_PP` (R24, R26). -/
abbrev Slot := BitVec 31

/-- A slot index, a selector, and `DX_KK`, `DX_SS`, `DX_CUR` (R24, R25, R71). -/
abbrev Index := BitVec 16

/-- A PCG64 register (R29). -/
abbrev Wide := BitVec 128

end Sys2Proof
end

