-- ==== Sys2Proof/Syntax.lean ====
section
/-!
DEFINITION. The twelve commands of `DXRE-CMD` version 1, one constructor per row of the opcode table (`30_encoding.md`
R72). Every operand is one whole unsigned 64-bit word and `IMM16` is an unsigned 16-bit integer (R76), so the types carry
the widths and every term of `Instr` has an encoding.
-/

namespace Sys2Proof

/-- A command, named as in R72. -/
inductive Instr where
  /-- `DX.INIT.SEED bb, pp, kk, ss, seed` (`40_dx_engine.md` R110). -/
  | dxInitSeed (bb pp kk ss seed : Word)
  /-- `DX.INIT.ENT bb, pp, kk, ss` (R112). -/
  | dxInitEnt (bb pp kk ss : Word)
  /-- `DX.NEXT.RAW` (R114). -/
  | dxNextRaw
  /-- `DX.NEXT.UNIT` (R116). -/
  | dxNextUnit
  /-- `DX.CLR` (R118). -/
  | dxClr
  /-- `CM.INIT.SEED bb_1, bb_2, seed` (`41_combined_engine.md` R160). -/
  | cmInitSeed (bb1 bb2 seed : Word)
  /-- `CM.INIT.ENT bb_1, bb_2` (R162). -/
  | cmInitEnt (bb1 bb2 : Word)
  /-- `CM.NEXT.RAW` (R164). -/
  | cmNextRaw
  /-- `CM.NEXT.UNIT` (R166). -/
  | cmNextUnit
  /-- `CM.CLR` (R168). -/
  | cmClr
  /-- `RD.REG sel` (`42_inspection.md` R182). -/
  | rdReg (sel : Index)
  /-- `RD.SLOT i` (R184). -/
  | rdSlot (i : Index)
  deriving DecidableEq, Repr

end Sys2Proof
end

