-- ==== Sys2Proof/WellFormed.lean ====
section
/-!
DEFINITION. Command packets and the five checks a packet must pass to be a legal command, stated on the header as a plain
number and independently of the decoder (`30_encoding.md` R70 to R75). The framing check is the channel's (R74); the other
four are those of R75. A term of `Instr` needs no check of its own: R76 lets an operand be any 64-bit word, and an operand
that its register cannot hold is answered by the command itself with INVALID_PARAMETER, not refused at decode.
-/

namespace Sys2Proof

/-- A command packet: one header word and the operand words after it (R70). -/
structure Packet where
  header   : Word
  operands : List Word
  deriving DecidableEq, Repr

/-- The operand count and whether `IMM16` is used, for a listed opcode (R72); none for a reserved one (R73). -/
def opcodeShape : Nat → Option (Nat × Bool)
  | 0x01 => some (5, false)
  | 0x02 => some (4, false)
  | 0x03 => some (0, false)
  | 0x04 => some (0, false)
  | 0x05 => some (0, false)
  | 0x11 => some (3, false)
  | 0x12 => some (2, false)
  | 0x13 => some (0, false)
  | 0x14 => some (0, false)
  | 0x15 => some (0, false)
  | 0x21 => some (0, true)
  | 0x22 => some (0, true)
  | _ => none

/-- The shape R72 gives the packet's opcode, header bits 7:0. -/
def Packet.shape (p : Packet) : Option (Nat × Bool) := opcodeShape (p.header.toNat % 2 ^ 8)

/-- As many operand words as `NARG`, header bits 15:8, says (R74). -/
def Packet.framed (p : Packet) : Bool := p.operands.length == p.header.toNat / 2 ^ 8 % 2 ^ 8

/-- The opcode is one of the twelve (R75, first check). -/
def Packet.opListed (p : Packet) : Bool := p.shape.isSome

/-- `NARG` is the opcode's (R75, second check). -/
def Packet.nargRight (p : Packet) : Bool := p.shape.any fun r => r.1 == p.header.toNat / 2 ^ 8 % 2 ^ 8

/-- `IMM16`, header bits 31:16, is zero where the command does not use it (R75, third check). -/
def Packet.immUsedOrZero (p : Packet) : Bool := p.shape.any fun r => r.2 || p.header.toNat / 2 ^ 16 % 2 ^ 16 == 0

/-- `RSV`, header bits 63:32, is zero (R75, fourth check). -/
def Packet.rsvZero (p : Packet) : Bool := p.header.toNat / 2 ^ 32 == 0

/-- A packet that is framed and passes the four checks of R75. -/
def Packet.wellFormed (p : Packet) : Bool :=
  p.framed && p.opListed && p.nargRight && p.immUsedOrZero && p.rsvZero

end Sys2Proof
end

