-- ==== Sys2Proof/Decode.lean ====
section
/-!
DEFINITION. The decoder, total on every packet, every word stream and every byte stream, which rejects by name
(`30_encoding.md` R71 to R76, `20_memory.md` R53), and after it the encoder, written from the same tables (R71, R72), with
the pseudo-instructions of R82.
-/

namespace Sys2Proof

/-- The twelve opcodes (R72). -/
inductive Opcode where
  | dxInitSeed | dxInitEnt | dxNextRaw | dxNextUnit | dxClr
  | cmInitSeed | cmInitEnt | cmNextRaw | cmNextUnit | cmClr
  | rdReg | rdSlot
  deriving DecidableEq, Repr

/-- The opcode byte `OP` (R72). -/
def Opcode.code : Opcode → BitVec 8
  | .dxInitSeed => 0x01
  | .dxInitEnt => 0x02
  | .dxNextRaw => 0x03
  | .dxNextUnit => 0x04
  | .dxClr => 0x05
  | .cmInitSeed => 0x11
  | .cmInitEnt => 0x12
  | .cmNextRaw => 0x13
  | .cmNextUnit => 0x14
  | .cmClr => 0x15
  | .rdReg => 0x21
  | .rdSlot => 0x22

/-- The operand count `NARG` (R72). -/
def Opcode.narg : Opcode → BitVec 8
  | .dxInitSeed => 5
  | .dxInitEnt => 4
  | .cmInitSeed => 3
  | .cmInitEnt => 2
  | .dxNextRaw | .dxNextUnit | .dxClr | .cmNextRaw | .cmNextUnit | .cmClr | .rdReg | .rdSlot => 0

/-- Whether the command uses `IMM16` (R71, R72). -/
def Opcode.usesImm : Opcode → Bool
  | .rdReg | .rdSlot => true
  | .dxInitSeed | .dxInitEnt | .dxNextRaw | .dxNextUnit | .dxClr
  | .cmInitSeed | .cmInitEnt | .cmNextRaw | .cmNextUnit | .cmClr => false

/-- The data words of a successful response (R72, column NDATA). -/
def Opcode.ndata : Opcode → Nat
  | .dxNextRaw | .dxNextUnit | .cmNextRaw | .cmNextUnit | .rdReg | .rdSlot => 1
  | .dxInitSeed | .dxInitEnt | .dxClr | .cmInitSeed | .cmInitEnt | .cmClr => 0

/-- The rows of R72, in its order. -/
def Opcode.all : List Opcode :=
  [.dxInitSeed, .dxInitEnt, .dxNextRaw, .dxNextUnit, .dxClr,
   .cmInitSeed, .cmInitEnt, .cmNextRaw, .cmNextUnit, .cmClr, .rdReg, .rdSlot]

/-- The opcode with byte `b`; none for the 244 reserved values (R73). -/
def Opcode.ofCode (b : BitVec 8) : Option Opcode := Opcode.all.find? fun o => o.code == b

/-- Header bits 7:0 (R71). -/
def Header.op (h : Word) : BitVec 8 := h.extractLsb' 0 8

/-- Header bits 15:8 (R71). -/
def Header.narg (h : Word) : BitVec 8 := h.extractLsb' 8 8

/-- Header bits 31:16 (R71). -/
def Header.imm (h : Word) : Index := h.extractLsb' 16 16

/-- Header bits 63:32 (R71). -/
def Header.rsv (h : Word) : BitVec 32 := h.extractLsb' 32 32

/-- `RSV << 32 | IMM16 << 16 | NARG << 8 | OP` (R71). -/
def Header.make (op narg : BitVec 8) (imm : Index) (rsv : BitVec 32) : Word := rsv ++ imm ++ narg ++ op

/-- Why a packet is no command: the four failures of R75. -/
inductive DecodeError where
  | reservedOp
  | nargMismatch
  | immNonzero
  | rsvNonzero
  deriving DecidableEq, Repr

/-- The `EDETAIL` of an ILLEGAL_CMD response (R75, `60_exceptions.md` R201). -/
def DecodeError.detail : DecodeError → BitVec 8
  | .reservedOp => 0x01
  | .nargMismatch => 0x02
  | .immNonzero => 0x03
  | .rsvNonzero => 0x04

/-- A command without operand words. -/
def noOperands (i : Instr) : List Word → Option Instr
  | [] => some i
  | _ :: _ => none

/-- A command of two operand words; none for any other number of them, as below. -/
def twoOperands (f : Word → Word → Instr) : List Word → Option Instr
  | [a0, a1] => some (f a0 a1)
  | _ => none

/-- A command of three operand words. -/
def threeOperands (f : Word → Word → Word → Instr) : List Word → Option Instr
  | [a0, a1, a2] => some (f a0 a1 a2)
  | _ => none

/-- A command of four operand words. -/
def fourOperands (f : Word → Word → Word → Word → Instr) : List Word → Option Instr
  | [a0, a1, a2, a3] => some (f a0 a1 a2 a3)
  | _ => none

/-- A command of five operand words. -/
def fiveOperands (f : Word → Word → Word → Word → Word → Instr) : List Word → Option Instr
  | [a0, a1, a2, a3, a4] => some (f a0 a1 a2 a3 a4)
  | _ => none

/-- The command of an opcode with its operand words and immediate, in the order of R72; none if the words are not as many
as R72 lists. -/
def Opcode.build (o : Opcode) (a : List Word) (imm : Index) : Option Instr :=
  match o with
  | .dxInitSeed => fiveOperands .dxInitSeed a
  | .dxInitEnt => fourOperands .dxInitEnt a
  | .dxNextRaw => noOperands .dxNextRaw a
  | .dxNextUnit => noOperands .dxNextUnit a
  | .dxClr => noOperands .dxClr a
  | .cmInitSeed => threeOperands .cmInitSeed a
  | .cmInitEnt => twoOperands .cmInitEnt a
  | .cmNextRaw => noOperands .cmNextRaw a
  | .cmNextUnit => noOperands .cmNextUnit a
  | .cmClr => noOperands .cmClr a
  | .rdReg => noOperands (.rdReg imm) a
  | .rdSlot => noOperands (.rdSlot imm) a

/-- The checks of R75, in its order, and then the command. A packet that is not framed (R74 never yields one) has the wrong
number of operand words and is rejected as `nargMismatch`. -/
def decode (p : Packet) : Except DecodeError Instr :=
  match Opcode.ofCode (Header.op p.header) with
  | none => .error .reservedOp
  | some o =>
    if Header.narg p.header ≠ o.narg then .error .nargMismatch
    else if o.usesImm = false ∧ Header.imm p.header ≠ 0 then .error .immNonzero
    else if Header.rsv p.header ≠ 0 then .error .rsvNonzero
    else match o.build p.operands (Header.imm p.header) with
      | some i => .ok i
      | none => .error .nargMismatch

/-- The first packet of a word stream and the words after it (R74: the length is `1 + NARG`, whatever the opcode); none
while the stream is too short. -/
def packetOfWords : List Word → Option (Packet × List Word)
  | [] => none
  | h :: ws =>
    let n := (Header.narg h).toNat
    if n ≤ ws.length then some (⟨h, ws.take n⟩, ws.drop n) else none

/-- Why a stream gives no instruction: it ends inside a packet (R74), or the packet is no command (R75). -/
inductive StreamError where
  | truncated
  | illegal (e : DecodeError)
  deriving DecidableEq, Repr

/-- The first instruction of a word stream, and the rest. -/
def decodeWords (ws : List Word) : Except StreamError (Instr × List Word) :=
  match packetOfWords ws with
  | none => .error .truncated
  | some (p, rest) =>
    match decode p with
    | .ok i => .ok (i, rest)
    | .error e => .error (.illegal e)

/-- The word that eight bytes carry, bits 7:0 first (R53). -/
def wordOfOctets (b0 b1 b2 b3 b4 b5 b6 b7 : Octet) : Word := b7 ++ b6 ++ b5 ++ b4 ++ b3 ++ b2 ++ b1 ++ b0

/-- The whole words of a byte stream (R53); bytes short of a word at its end carry none. -/
def wordsOfOctets : List Octet → List Word
  | b0 :: b1 :: b2 :: b3 :: b4 :: b5 :: b6 :: b7 :: bs => wordOfOctets b0 b1 b2 b3 b4 b5 b6 b7 :: wordsOfOctets bs
  | _ => []

/-- The first instruction of a byte stream, and the words after it. -/
def decodeOctets (bs : List Octet) : Except StreamError (Instr × List Word) := decodeWords (wordsOfOctets bs)

/-- The words of an instruction whose bits are `w`, the first word in the least significant place: the header and as many
words after it as its `NARG` says, every bit from `nbits` up being 0. -/
def tableWords (nbits w : Nat) : List Word :=
  let bits := w % 2 ^ nbits
  let h : Word := BitVec.ofNat 64 bits
  (List.range (1 + (Header.narg h).toNat)).map fun j => BitVec.ofNat 64 (bits >>> (64 * j))

/-- The instruction the decoder reads from those words. -/
def decodeTableWord (nbits w : Nat) : Option Instr :=
  match decodeWords (tableWords nbits w) with
  | .ok (i, _) => some i
  | .error _ => none

/-! The encoder. -/

/-- The row of R72 a command stands in. -/
def Instr.opcode : Instr → Opcode
  | .dxInitSeed _ _ _ _ _ => .dxInitSeed
  | .dxInitEnt _ _ _ _ => .dxInitEnt
  | .dxNextRaw => .dxNextRaw
  | .dxNextUnit => .dxNextUnit
  | .dxClr => .dxClr
  | .cmInitSeed _ _ _ => .cmInitSeed
  | .cmInitEnt _ _ => .cmInitEnt
  | .cmNextRaw => .cmNextRaw
  | .cmNextUnit => .cmNextUnit
  | .cmClr => .cmClr
  | .rdReg _ => .rdReg
  | .rdSlot _ => .rdSlot

/-- The operand words, in the order of R72. -/
def Instr.operands : Instr → List Word
  | .dxInitSeed bb pp kk ss seed => [bb, pp, kk, ss, seed]
  | .dxInitEnt bb pp kk ss => [bb, pp, kk, ss]
  | .cmInitSeed bb1 bb2 seed => [bb1, bb2, seed]
  | .cmInitEnt bb1 bb2 => [bb1, bb2]
  | .dxNextRaw | .dxNextUnit | .dxClr | .cmNextRaw | .cmNextUnit | .cmClr | .rdReg _ | .rdSlot _ => []

/-- `IMM16`: the selector or the slot index, zero for every other command (R71). -/
def Instr.imm : Instr → Index
  | .rdReg sel => sel
  | .rdSlot i => i
  | .dxInitSeed _ _ _ _ _ | .dxInitEnt _ _ _ _ | .dxNextRaw | .dxNextUnit | .dxClr
  | .cmInitSeed _ _ _ | .cmInitEnt _ _ | .cmNextRaw | .cmNextUnit | .cmClr => 0

/-- The packet of a command (R71, R72; `RSV` is zero, R81). -/
def encode (i : Instr) : Packet := ⟨Header.make i.opcode.code i.opcode.narg i.imm 0, i.operands⟩

/-- The words a packet is sent as, header first (R70). -/
def Packet.words (p : Packet) : List Word := p.header :: p.operands

/-- The bytes of a word, bits 7:0 first (R53). -/
def octetsOfWord (w : Word) : List Octet :=
  [w.extractLsb' 0 8, w.extractLsb' 8 8, w.extractLsb' 16 8, w.extractLsb' 24 8,
   w.extractLsb' 32 8, w.extractLsb' 40 8, w.extractLsb' 48 8, w.extractLsb' 56 8]

/-- The bytes of a word stream (R53). -/
def octetsOfWords (ws : List Word) : List Octet := ws.flatMap octetsOfWord

/-! Pseudo-instructions: expanded by the assembler, never received by the block (R82). -/

/-- The default multiplier `bb_1` (R6). -/
def defaultBb1 : Word := 18446744073709550874

/-- The default multiplier `bb_2` (R6). -/
def defaultBb2 : Word := 18446744073709471449

/-- The pseudo-instructions of R82. `DX.INIT.ID` takes the tuple its id resolves to: resolving it is the host's business
(`00_scope.md` section 6, R5). -/
inductive Pseudo where
  | cmInitDefault (seed : Word)
  | cmInitDefaultEnt
  | rdPcgState
  | rdPcgInc
  | dxInitId (bb pp kk ss : Word) (seed : Option Word)
  deriving DecidableEq, Repr

/-- The commands a pseudo-instruction stands for (R82). -/
def Pseudo.expand : Pseudo → List Instr
  | .cmInitDefault seed => [.cmInitSeed defaultBb1 defaultBb2 seed]
  | .cmInitDefaultEnt => [.cmInitEnt defaultBb1 defaultBb2]
  | .rdPcgState => [.rdReg 0x0020, .rdReg 0x0021]
  | .rdPcgInc => [.rdReg 0x0022, .rdReg 0x0023]
  | .dxInitId bb pp kk ss (some seed) => [.dxInitSeed bb pp kk ss seed]
  | .dxInitId bb pp kk ss none => [.dxInitEnt bb pp kk ss]

end Sys2Proof
end

