-- ==== Sys2Proof/Config.lean ====
section
/-!
DEFINITION. What an implementation fixes and the spec leaves OPEN. `KK_MAX` is an OPEN parameter (`00_scope.md` R6,
decision D9), so the machine carries it in its state (`State.kkMax`, the register `KK_MAX_REG` of `10_state.md` R23) and no
definition of the model depends on its value; here stand the bounds R6 gives it and the value `State.reset` starts from.
The other OPEN parameter, `ENTROPY` (R6, D36), is a free input of the step and has no constant: `State.entropyIn`.
-/

namespace Sys2Proof.Config

/-- The least `KK_MAX` (R6). -/
def kkMaxLeast : Nat := 2

/-- The greatest `KK_MAX` (R6). -/
def kkMaxGreatest : Nat := 65535

/-- The `KK_MAX` that `State.reset` carries. DESIGN CHOICE, unsafe for a statement about `State.reset` alone, log entry 1:
R6 leaves `KK_MAX` OPEN and names 1024 as the reference configuration. -/
def kkMaxReference : Index := 1024

/-- The response-queue capacity, in words, that `State.reset` carries. DESIGN CHOICE, unsafe, log entry 2: R229 needs a
bound and gives none. -/
def respCapReference : Nat := 4096

/-- The shortest queue that can hold every response: a status word and one data word (R70, R78). -/
def respCapLeast : Nat := 2

end Sys2Proof.Config
end

