-- ==== Sys2Proof/Machine/State.lean ====
section
/-!
DEFINITION. The state of the block, all of it, as plain data (`10_state.md` sections 1 to 6, `70_reset_and_hazards.md`
section 1), the reasons a step can stop, and the state after reset. The constants `BLOCK_ID` and `PP_MAX_REG` (R23) are
hard-wired and stand in the one operation that reads registers (`Machine/Inspect.lean`).
-/

namespace Sys2Proof.Machine

/-- Why the machine stops with a fault. -/
inductive Fault where
  /-- Raised by the slot accesses of `DX.NEXT.RAW`, `DX.NEXT.UNIT` and `RD.SLOT` when the index lies outside the slot space
  `0 <= i < KK_MAX` (`20_memory.md` R51). Safe, and met only in states no run reaches: while `DXV` = 1 the machine keeps
  `DX_CUR < DX_KK <= KK_MAX` (`10_state.md` R28). Log entry 9. -/
  | slotAbsent
  deriving DecidableEq, Repr

/-- Why an instruction has no meaning. -/
inductive Refusal where
  /-- Raised by nothing: every command of the opcode table has its meaning. Safe. -/
  | notModelled (mnemonic : String)
  deriving DecidableEq, Repr

/-- The slot buffer `S`, the block's only indexed storage (R9, R26): the slots that are not 0, by rising index. A slot not
listed reads as 0, the value R26 resets it to. -/
abbrev Memory := List (Nat × Slot)

/-- The DX unit (`10_state.md` section 3). -/
structure DxUnit where
  /-- `DXV`: configured (R22). -/
  v : Bool
  /-- `DX_BB`, the multiplier (R24). -/
  bb : Slot
  /-- `DX_PP`, the prime modulus (R24). -/
  pp : Slot
  /-- `DX_KK`, the order (R24). -/
  kk : Index
  /-- `DX_SS`, the lag (R24). -/
  ss : Index
  /-- `DX_CUR`, the slot of the most recent value (R25). -/
  cur : Index
  /-- `S` (R26). -/
  slots : Memory
  deriving DecidableEq, Repr

/-- The CM unit (`10_state.md` section 4). -/
structure CmUnit where
  /-- `CMV`: configured (R22). -/
  v : Bool
  /-- `CM_PCG_STATE` (R29). -/
  pcgState : Wide
  /-- `CM_PCG_INC` (R29). -/
  pcgInc : Wide
  /-- `CM_X1`, the low word of lane 1 (R30). -/
  x1 : Word
  /-- `CM_C1`, the carry of lane 1 (R30). -/
  c1 : Word
  /-- `CM_X2`, the low word of lane 2 (R30). -/
  x2 : Word
  /-- `CM_C2`, the carry of lane 2 (R30). -/
  c2 : Word
  /-- `CM_BB1`, the multiplier of lane 1 (R31). -/
  bb1 : Word
  /-- `CM_BB2`, the multiplier of lane 2 (R31). -/
  bb2 : Word
  deriving DecidableEq, Repr

/-- The command parser (R34 (a), `30_encoding.md` R74). -/
inductive Parser where
  /-- The next word is a header. -/
  | header
  /-- A header has been taken, and these operand words of its packet after it. -/
  | operands (hdr : Word) (got : List Word)
  deriving DecidableEq, Repr

/-- The two commands that draw entropy (`70_reset_and_hazards.md` R227), with their operands. -/
inductive EntropyCmd where
  | dxInit (bb pp kk ss : Word)
  | cmInit (bb1 bb2 : Word)
  deriving DecidableEq, Repr

/-- An `*.INIT.ENT` command whose entropy words have not all arrived: a request is outstanding (R34 (c), R227). -/
structure EntropyWait where
  cmd   : EntropyCmd
  /-- The words drawn so far, in the order they arrived. -/
  drawn : List Word
  deriving DecidableEq, Repr

/-- The block and the words that stand on its channels. -/
structure State where
  dx : DxUnit
  cm : CmUnit
  /-- `KK_MAX_REG` (R23), the OPEN parameter `KK_MAX` of `00_scope.md` R6; no command and no reset changes it. -/
  kkMax : Index
  parser : Parser
  /-- Words of the command channel that the parser has not taken, oldest first (R219), any number of them: DESIGN CHOICE, safe,
  log entry 7. -/
  cmdIn : List Word
  /-- Response words the host has not taken, oldest first (R34 (b)). -/
  respOut : List Word
  /-- The model's own field: how many words the response queue holds (R229 gives no number).
  DESIGN CHOICE, unsafe for a statement that rests on its value, log entry 2. -/
  respCap : Nat
  /-- The `*.INIT.ENT` command that waits for entropy, if there is one (R34 (c)). -/
  wait : Option EntropyWait
  /-- A free input (R227): the words with which the entropy source answers the requests the block makes, in order. Empty:
  it has delivered none yet. DESIGN CHOICE, safe, log entry 3. -/
  entropyIn : List Word
  /-- The pin `rst` (R219). -/
  rst : Bool
  deriving DecidableEq, Repr

/-- An unconfigured DX unit: every register and slot 0 (R36). -/
def DxUnit.cleared : DxUnit := ⟨false, 0, 0, 0, 0, 0, []⟩

/-- An unconfigured CM unit: every register 0 (R36). -/
def CmUnit.cleared : CmUnit := ⟨false, 0, 0, 0, 0, 0, 0, 0, 0⟩

/-- The block right after reset (R36, R220), for each value of the two parameters an implementation fixes. -/
def State.resetWith (kkMax : Index) (respCap : Nat) : State where
  dx := DxUnit.cleared
  cm := CmUnit.cleared
  kkMax := kkMax
  parser := .header
  cmdIn := []
  respOut := []
  respCap := respCap
  wait := none
  entropyIn := []
  rst := false

/-- The block right after reset, in the reference configuration (log entries 1 and 2). -/
def State.reset : State := State.resetWith Config.kkMaxReference Config.respCapReference

end Sys2Proof.Machine
end

