-- ==== Sys2Proof/Machine/Flags.lean ====
section
/-!
DEFINITION. The flags `DXV` and `CMV` where software sees them (`10_state.md` R22): the register `UNIT_FLAGS`
(`42_inspection.md` R181) and the status word of every response (`30_encoding.md` R77).
-/

namespace Sys2Proof.Machine

/-- `UNIT_FLAGS`, `CMV << 1 | DXV` (R181). -/
def unitFlags (s : State) : Word := (0 : BitVec 62) ++ BitVec.ofBool s.cm.v ++ BitVec.ofBool s.dx.v

/-- The status word (R77): `NDATA << 32 | CMV << 25 | DXV << 24 | OPECHO << 16 | EDETAIL << 8 | ECODE`, bits 31:26 zero. -/
def statusWord (ecode edetail opecho : BitVec 8) (dxv cmv : Bool) (ndata : Nat) : Word :=
  BitVec.ofNat 32 ndata ++ (0 : BitVec 6) ++ BitVec.ofBool cmv ++ BitVec.ofBool dxv ++ opecho ++ edetail ++ ecode

end Sys2Proof.Machine
end

