-- ==== Sys2Proof/Machine/Ops.lean ====
section
/-!
DEFINITION. The named operations over storage, channels and ports: reading and writing a slot (`10_state.md` R26,
`20_memory.md` R51), ending a command with a response or with an error (`00_scope.md` R9, `60_exceptions.md` R203), drawing
entropy (`70_reset_and_hazards.md` R227), reset (R220), and what the host may do on the channels (R219).
-/

namespace Sys2Proof.Machine

/-! Storage. -/

/-- `S[i]`: the listed value, 0 if there is none (R26). -/
def Memory.read : Memory → Nat → Slot
  | [], _ => 0
  | (a, v) :: m, i => if i = a then v else Memory.read m i

/-- The buffer with slot `i` at 0. -/
def Memory.erase (m : Memory) (i : Nat) : Memory := m.filter fun c => c.1 != i

/-- The buffer with `(i, v)` listed at its place. -/
def Memory.insert : Memory → Nat → Slot → Memory
  | [], i, v => [(i, v)]
  | (a, w) :: m, i, v => if i < a then (i, v) :: (a, w) :: m else (a, w) :: Memory.insert m i v

/-- `S[i] <- v`, keeping the canonical form: 0 is never listed. -/
def Memory.write (m : Memory) (i : Nat) (v : Slot) : Memory :=
  if v = 0 then m.erase i else (m.erase i).insert i v

/-- The buffer that holds these values from slot `i` on and 0 in every other slot. -/
def Memory.ofValuesFrom (i : Nat) : List Slot → Memory
  | [] => []
  | v :: vs => if v = 0 then Memory.ofValuesFrom (i + 1) vs else (i, v) :: Memory.ofValuesFrom (i + 1) vs

/-- `S[i] <- v[i]` for every listed value, every other slot 0 (`40_dx_engine.md` R106). -/
def Memory.ofValues (vs : List Slot) : Memory := Memory.ofValuesFrom 0 vs

/-- The canonical form: indices strictly rising, and no slot listed with the value an unlisted slot reads as. -/
abbrev Memory.wf (m : Memory) : Prop := m.Pairwise (fun c d => c.1 < d.1) ∧ ∀ c ∈ m, c.2 ≠ 0

/-- `S[i]` as an access of the slot space: none outside `0 <= i < KK_MAX` (R51). -/
def State.readSlot (s : State) (i : Nat) : Option Slot :=
  if i < s.kkMax.toNat then some (s.dx.slots.read i) else none

/-! Units. -/

/-- Writes the whole DX unit at once (R203: state writes take effect together). -/
def State.setDx (s : State) (d : DxUnit) : State := { s with dx := d }

/-- Writes the whole CM unit at once. -/
def State.setCm (s : State) (c : CmUnit) : State := { s with cm := c }

/-! Responses and errors. -/

/-- Queues response words behind those the host has not taken (`20_memory.md` R56). -/
def State.pushResponse (s : State) (ws : List Word) : State := { s with respOut := s.respOut ++ ws }

/-- The error codes (`60_exceptions.md` R200). -/
inductive ErrorCode where
  | illegalCmd
  | invalidParameter
  | notConfigured
  | badSelector
  deriving DecidableEq, Repr

/-- The `ECODE` of an error (R200); `OK` is 0. -/
def ErrorCode.code : ErrorCode → BitVec 8
  | .illegalCmd => 0x01
  | .invalidParameter => 0x02
  | .notConfigured => 0x03
  | .badSelector => 0x04

/-- `respond(w1, ..., wn)` (R9): the response of a command that succeeded, with the flags as they are after it (R77). -/
def State.respond (s : State) (opecho : BitVec 8) (data : List Word) : State :=
  s.pushResponse (statusWord 0 0 opecho s.dx.v s.cm.v data.length :: data)

/-- `raise E(d)` (R9), the block's only exception: the status word alone, and no other state written (R202 to R204). -/
def State.raise (s : State) (opecho : BitVec 8) (e : ErrorCode) (detail : BitVec 8) : State :=
  s.pushResponse [statusWord e.code detail opecho s.dx.v s.cm.v 0]

/-! Entropy. -/

/-- `n` draws (R227): the first `n` words of the entropy channel, in order, and the state without them; none while fewer
have arrived. -/
def State.drawEntropy (s : State) (n : Nat) : Option (List Word × State) :=
  if n ≤ s.entropyIn.length then some (s.entropyIn.take n, { s with entropyIn := s.entropyIn.drop n }) else none

/-- The command has taken every word there is and waits for more: it has not ended, and has written no register (R227). -/
def State.awaitEntropy (s : State) (c : EntropyCmd) : State :=
  { s with wait := some ⟨c, s.entropyIn⟩, entropyIn := [] }

/-- The state in which a waiting command looks again at the words it has drawn and those that came since. -/
def State.resumeWith (s : State) (w : EntropyWait) : State :=
  { s with wait := none, entropyIn := w.drawn ++ s.entropyIn }

/-- The entropy words the command uses (R227). -/
def EntropyCmd.needs : EntropyCmd → Nat
  | .dxInit _ _ kk _ => kk.toNat
  | .cmInit _ _ => 8

/-- The entropy request port (R219): a command waits, and the words it has and those on their way to it do not suffice, for
it asks for exactly as many as it uses (R227). -/
def State.entropyRequested (s : State) : Bool :=
  s.wait.any fun w => decide (w.drawn.length + s.entropyIn.length < w.cmd.needs)

/-! Reset. -/

/-- Reset (R220): every piece of state at its reset value, the executing command abandoned, the channels empty, the
parameters and the pin as they are. DEDUCED, log entry 6: words not yet parsed are dropped too, unsafe for a statement about
them. -/
def State.applyReset (s : State) : State := { State.resetWith s.kkMax s.respCap with rst := s.rst }

/-! The host, on the ports of R219. No step does any of these. -/

/-- The host sends a word on the command channel. -/
def State.sendWord (s : State) (w : Word) : State := { s with cmdIn := s.cmdIn ++ [w] }

/-- The host takes the oldest response word. -/
def State.takeResponse (s : State) : Option (Word × State) :=
  match s.respOut with
  | [] => none
  | w :: ws => some (w, { s with respOut := ws })

/-- The entropy source answers an outstanding request; a word for a request that reset withdrew is not used (R220 (e)). -/
def State.deliverEntropy (s : State) (w : Word) : State :=
  if s.entropyRequested then { s with entropyIn := s.entropyIn ++ [w] } else s

/-- `rst` is asserted (R220). -/
def State.assertReset (s : State) : State := { s.applyReset with rst := true }

/-- `rst` is released (R220): the block waits for the first header word. -/
def State.releaseReset (s : State) : State := { s.applyReset with rst := false }

end Sys2Proof.Machine
end

