-- ==== Sys2Proof/Machine/Operands.lean ====
section
/-!
DEFINITION. The operand forms and the checks on them: a word operand is taken whole as an unsigned integer and fails its
command's parameter check if its register cannot hold it (`30_encoding.md` R76), the DX check (`40_dx_engine.md` R101) with
its primality test (`00_scope.md` R8), the CM check (`41_combined_engine.md` R140), and the selector space (`20_memory.md`
R52, `42_inspection.md` R181).
-/

namespace Sys2Proof.Machine

/-- `PP_MAX` = 2^31 - 1 (R6). -/
def ppMax : Nat := 2147483647

/-- No number from `d` up whose square is at most `n` divides `n`; the first argument bounds the numbers tried. -/
def noDivisorFrom : Nat → Nat → Nat → Bool
  | 0, _, _ => true
  | fuel + 1, d, n =>
    if n < d * d then true else if n % d = 0 then false else noDivisorFrom fuel (d + 1) n

/-- `isPrime(n)` (R8), by trial division. -/
def isPrime (n : Nat) : Bool := decide (2 ≤ n) && noDivisorFrom n 2 n

/-- `dx_check` (R101): none if the four conditions hold, else the detail of the first that fails. -/
def dxCheck (kkMax bb pp kk ss : Nat) : Option (BitVec 8) :=
  if ¬(0 < ss ∧ ss < kk) then some 3
  else if ¬(pp ≤ ppMax ∧ isPrime pp = true) then some 1
  else if ¬(1 ≤ kk ∧ kk ≤ kkMax) then some 2
  else if ¬(bb < pp) then some 0
  else none

/-- `cm_check` (R140). -/
def cmCheck (bb1 bb2 : Nat) : Option (BitVec 8) :=
  if bb1 = 0 then some 0
  else if bb2 = 0 then some 1
  else none

/-- The readable registers (R181). -/
inductive Selector where
  | blockId | kkMaxReg | ppMaxReg | unitFlags
  | dxBb | dxPp | dxKk | dxSs | dxCur
  | cmPcgStateLo | cmPcgStateHi | cmPcgIncLo | cmPcgIncHi
  | cmX1 | cmC1 | cmX2 | cmC2 | cmBb1 | cmBb2
  deriving DecidableEq, Repr

/-- The selector number (R181). -/
def Selector.code : Selector → Index
  | .blockId => 0x0000
  | .kkMaxReg => 0x0001
  | .ppMaxReg => 0x0002
  | .unitFlags => 0x0003
  | .dxBb => 0x0010
  | .dxPp => 0x0011
  | .dxKk => 0x0012
  | .dxSs => 0x0013
  | .dxCur => 0x0014
  | .cmPcgStateLo => 0x0020
  | .cmPcgStateHi => 0x0021
  | .cmPcgIncLo => 0x0022
  | .cmPcgIncHi => 0x0023
  | .cmX1 => 0x0024
  | .cmC1 => 0x0025
  | .cmX2 => 0x0026
  | .cmC2 => 0x0027
  | .cmBb1 => 0x0028
  | .cmBb2 => 0x0029

/-- The rows of R181, in its order. -/
def Selector.all : List Selector :=
  [.blockId, .kkMaxReg, .ppMaxReg, .unitFlags, .dxBb, .dxPp, .dxKk, .dxSs, .dxCur,
   .cmPcgStateLo, .cmPcgStateHi, .cmPcgIncLo, .cmPcgIncHi, .cmX1, .cmC1, .cmX2, .cmC2, .cmBb1, .cmBb2]

/-- The register a selector names; none for a reserved one (R52, R181). -/
def Selector.ofCode (sel : Index) : Option Selector := Selector.all.find? fun r => r.code == sel

end Sys2Proof.Machine
end

