-- ==== Sys2Proof/Machine/Float.lean ====
section
/-!
DEFINITION. The two mappings of an output to a binary64 bit pattern in [0, 1): `f64_ratio` (`40_dx_engine.md` R108) and
`f64_top53` (`41_combined_engine.md` R155). The layout of the pattern is `30_encoding.md` R78.
-/

namespace Sys2Proof.Machine

/-- The least `k` from the second argument up with `n * 2^k >= d`; the first argument bounds the search. -/
def ratioShift (n d : Nat) : Nat → Nat → Nat
  | 0, k => k
  | fuel + 1, k => if d ≤ n * 2 ^ k then k else ratioShift n d fuel (k + 1)

/-- Rounds the quotient `q` of remainder `r` by `d` to nearest, ties to even. -/
def roundNearestEven (q r d : Nat) : Nat := if d < 2 * r ∨ (2 * r = d ∧ q % 2 = 1) then q + 1 else q

/-- `f64_ratio(n, d)` (R108). The biased exponent `e + 1023` is `1023 - k`, and one more if rounding reaches `2^53`. -/
def f64Ratio (n d : Nat) : Word :=
  if n = 0 then 0
  else
    let k := ratioShift n d d 1
    let scaled := n * 2 ^ (52 + k)
    let q := roundNearestEven (scaled / d) (scaled % d) d
    if q = 2 ^ 53 then BitVec.ofNat 64 (((1024 - k) <<< 52) ||| (2 ^ 52 - 2 ^ 52))
    else BitVec.ofNat 64 (((1023 - k) <<< 52) ||| (q - 2 ^ 52))

/-- `f64_top53(out)` (R155). -/
def f64Top53 (out : Word) : Word :=
  let m := out.toNat >>> 11
  if m = 0 then 0
  else
    let e := Nat.log2 m
    BitVec.ofNat 64 (((e + 970) <<< 52) ||| ((m <<< (52 - e)) - 2 ^ 52))

end Sys2Proof.Machine
end

