-- ==== Sys2Proof/Machine/Seed.lean ====
section
/-!
DEFINITION. Seed expansion, SplitMix64 (`40_dx_engine.md` R100), shared by both units.
-/

namespace Sys2Proof.Machine

def smGamma : Word := 0x9E3779B97F4A7C15
def smMix1 : Word := 0xBF58476D1CE4E5B9
def smMix2 : Word := 0x94D049BB133111EB

/-- The expansion state `sm_next` leaves. -/
def smState (s : Word) : Word := s + smGamma

/-- The word `sm_next` returns, from the state it leaves. -/
def smOutput (s' : Word) : Word :=
  let z1 := (s' ^^^ (s' >>> 30)) * smMix1
  let z2 := (z1 ^^^ (z1 >>> 27)) * smMix2
  z2 ^^^ (z2 >>> 31)

/-- `seedwords(seed, n)`: the first word produced stands first (R102). -/
def seedwords (seed : Word) : Nat → List Word
  | 0 => []
  | n + 1 => smOutput (smState seed) :: seedwords (smState seed) n

end Sys2Proof.Machine
end

