-- ==== Sys2Proof/Machine/Cm.lean ====
section
/-!
DEFINITION. The CM unit: PCG64 and the two multiply-with-carry lanes, their seeding and step, and the meanings of
`CM.INIT.SEED`, `CM.INIT.ENT`, `CM.NEXT.RAW`, `CM.NEXT.UNIT` and `CM.CLR` (`41_combined_engine.md`).
-/

namespace Sys2Proof.Machine

/-- `PCG_MUL` (R6, R143). -/
def pcgMul : Wide := 0x2360ED051FC65DA44385DF649FCCF645

/-- `pcg_lcg` (R143). -/
def pcgLcg (st inc : Wide) : Wide := st * pcgMul + inc

/-- `rotr64` (`00_scope.md` R8). -/
def rotr64 (v : Word) (r : Nat) : Word := (v >>> r) ||| (v <<< (64 - r))

/-- `pcg_out` (R143): the halves xored, rotated right by the top six bits. -/
def pcgOut (st : Wide) : Word :=
  rotr64 (st.extractLsb' 64 64 ^^^ st.extractLsb' 0 64) (st.extractLsb' 122 6).toNat

/-- The increment `pcg_seed` returns (R144). -/
def pcgSeedInc (w2 w3 : Word) : Wide := ((w2 ++ w3) <<< 1) ||| 1

/-- The state `pcg_seed` returns, with the increment `inc` (R144). -/
def pcgSeedState (w0 w1 : Word) (inc : Wide) : Wide := pcgLcg (pcgLcg 0 inc + (w0 ++ w1)) inc

/-- The low word a lane starts from, in `[1, 2^64 - 2]` (R147). -/
def laneStart (w : Word) : Word := BitVec.ofNat 64 (w.toNat % (2 ^ 64 - 2) + 1)

/-- The carry a lane starts from, below its multiplier (R147). -/
def laneCarry (w bb : Word) : Word := BitVec.ofNat 64 (w.toNat % bb.toNat)

/-- The low word of lane 2, moved on by one within `[1, 2^64 - 2]` if the lanes coincide (R147). -/
def laneApart (x1 c1 x2 c2 : Word) : Word :=
  if x2 = x1 ∧ c2 = c1 then (if x2.toNat < 2 ^ 64 - 2 then x2 + 1 else 1) else x2

/-- `cm_commit` (R148) from eight source words: the whole unit, configured. -/
def cmCommit (bb1 bb2 w0 w1 w2 w3 w4 w5 w6 w7 : Word) : CmUnit where
  v := true
  pcgState := pcgSeedState w0 w1 (pcgSeedInc w2 w3)
  pcgInc := pcgSeedInc w2 w3
  x1 := laneStart w4
  c1 := laneCarry w5 bb1
  x2 := laneApart (laneStart w4) (laneCarry w5 bb1) (laneStart w6) (laneCarry w7 bb2)
  c2 := laneCarry w7 bb2
  bb1 := bb1
  bb2 := bb2

/-- The unit a successful `CM.INIT.*` leaves, from its multipliers and its source words `w[0 .. 7]` (R146 to R148). -/
def cmSeeded (bb1 bb2 : Word) (ws : List Word) : CmUnit :=
  let w := fun i => ws.getD i 0
  cmCommit bb1 bb2 (w 0) (w 1) (w 2) (w 3) (w 4) (w 5) (w 6) (w 7)

/-- `t` of a lane step, exact (R151). -/
def laneProduct (bb x c : Word) : Nat := bb.toNat * x.toNat + c.toNat

/-- The new low word of a lane, also its output (R151). -/
def laneLow (bb x c : Word) : Word := BitVec.ofNat 64 (laneProduct bb x c % 2 ^ 64)

/-- The new carry of a lane (R151). -/
def laneHigh (bb x c : Word) : Word := BitVec.ofNat 64 (laneProduct bb x c / 2 ^ 64)

/-- The unit `cm_step` leaves (R150, R151, R154). -/
def cmAdvance (c : CmUnit) : CmUnit :=
  { c with
    pcgState := pcgLcg c.pcgState c.pcgInc
    x1 := laneLow c.bb1 c.x1 c.c1
    c1 := laneHigh c.bb1 c.x1 c.c1
    x2 := laneLow c.bb2 c.x2 c.c2
    c2 := laneHigh c.bb2 c.x2 c.c2 }

/-- What `cm_step` returns, from the unit it leaves: the PCG output of the new state plus the sum of the new low words, both
sums mod 2^64 (R150, R152, R153). -/
def cmOutput (c' : CmUnit) : Word := pcgOut c'.pcgState + (c'.x1 + c'.x2)

/-- `CM.INIT.SEED` (R160). -/
def execCmInitSeed (bb1 bb2 seed : Word) (s : State) : Host.Outcome State Fault Refusal :=
  match cmCheck bb1.toNat bb2.toNat with
  | some detail => .next (s.raise Opcode.cmInitSeed.code .invalidParameter detail)
  | none => .next ((s.setCm (cmSeeded bb1 bb2 (seedwords seed 8))).respond Opcode.cmInitSeed.code [])

/-- `CM.INIT.ENT` (R162): with its eight entropy words it ends; with fewer it waits (R227). -/
def execCmInitEnt (bb1 bb2 : Word) (s : State) : Host.Outcome State Fault Refusal :=
  match cmCheck bb1.toNat bb2.toNat with
  | some detail => .next (s.raise Opcode.cmInitEnt.code .invalidParameter detail)
  | none =>
    match s.drawEntropy 8 with
    | none => .next (s.awaitEntropy (.cmInit bb1 bb2))
    | some (ws, s') => .next ((s'.setCm (cmSeeded bb1 bb2 ws)).respond Opcode.cmInitEnt.code [])

/-- `CM.NEXT.RAW` (R164). -/
def execCmNextRaw (s : State) : Host.Outcome State Fault Refusal :=
  if s.cm.v = false then .next (s.raise Opcode.cmNextRaw.code .notConfigured 0)
  else .next ((s.setCm (cmAdvance s.cm)).respond Opcode.cmNextRaw.code [cmOutput (cmAdvance s.cm)])

/-- `CM.NEXT.UNIT` (R166): the same step, its value as a binary64 in [0, 1). -/
def execCmNextUnit (s : State) : Host.Outcome State Fault Refusal :=
  if s.cm.v = false then .next (s.raise Opcode.cmNextUnit.code .notConfigured 0)
  else .next ((s.setCm (cmAdvance s.cm)).respond Opcode.cmNextUnit.code [f64Top53 (cmOutput (cmAdvance s.cm))])

/-- `CM.CLR` (R168). -/
def execCmClr (s : State) : Host.Outcome State Fault Refusal :=
  .next ((s.setCm CmUnit.cleared).respond Opcode.cmClr.code [])

end Sys2Proof.Machine
end

