-- ==== Sys2Proof/Machine/Dx.lean ====
section
/-!
DEFINITION. The DX unit: seeding, the recurrence, and the meanings of `DX.INIT.SEED`, `DX.INIT.ENT`, `DX.NEXT.RAW`,
`DX.NEXT.UNIT` and `DX.CLR` (`40_dx_engine.md`).
-/

namespace Sys2Proof.Machine

/-- `dx_fix_zero` (R105): an all-zero vector gets 1 in its first place. -/
def dxFixZero (v : List Nat) : List Nat :=
  if v.all (fun x => x == 0) then
    match v with
    | [] => []
    | _ :: rest => 1 :: rest
  else v

/-- The initial slot values from the source words: each reduced mod `pp` (R104), then the fallback (R105). -/
def dxSeedValues (pp : Nat) (ws : List Word) : List Nat := dxFixZero (ws.map fun w => w.toNat % pp)

/-- `dx_commit` (R106): the whole unit, configured with these parameters and slot values. -/
def dxCommit (bb pp kk ss : Nat) (v : List Nat) : DxUnit where
  v := true
  bb := BitVec.ofNat 31 bb
  pp := BitVec.ofNat 31 pp
  kk := BitVec.ofNat 16 kk
  ss := BitVec.ofNat 16 ss
  cur := BitVec.ofNat 16 (kk - 1)
  slots := Memory.ofValues (v.map (BitVec.ofNat 31))

/-- The unit a successful `DX.INIT.*` leaves, from its operands and its source words (R102 to R106). -/
def dxSeeded (bb pp kk ss : Word) (ws : List Word) : DxUnit :=
  dxCommit bb.toNat pp.toNat kk.toNat ss.toNat (dxSeedValues pp.toNat ws)

/-- The slot of `x[n-kk]`, the oldest value (R107). -/
def dxOldest (d : DxUnit) : Nat := (d.cur.toNat + 1) % d.kk.toNat

/-- The slot of `x[n-ss]` (R107). -/
def dxLagged (d : DxUnit) : Nat := (d.cur.toNat + 1 + d.kk.toNat - d.ss.toNat) % d.kk.toNat

/-- `dx_step` (R107): the new value and the state with it in the oldest slot and the cursor there; none if a slot it names
lies outside the slot space. -/
def dxStep (s : State) : Option (Nat × State) :=
  match s.readSlot (dxLagged s.dx), s.readSlot (dxOldest s.dx) with
  | some xl, some xo =>
    let v := (s.dx.bb.toNat * xl.toNat + xo.toNat) % s.dx.pp.toNat
    some (v, s.setDx { s.dx with
      slots := s.dx.slots.write (dxOldest s.dx) (BitVec.ofNat 31 v)
      cur := BitVec.ofNat 16 (dxOldest s.dx) })
  | _, _ => none

/-- `DX.INIT.SEED` (R110). -/
def execDxInitSeed (bb pp kk ss seed : Word) (s : State) : Host.Outcome State Fault Refusal :=
  match dxCheck s.kkMax.toNat bb.toNat pp.toNat kk.toNat ss.toNat with
  | some detail => .next (s.raise Opcode.dxInitSeed.code .invalidParameter detail)
  | none => .next ((s.setDx (dxSeeded bb pp kk ss (seedwords seed kk.toNat))).respond Opcode.dxInitSeed.code [])

/-- `DX.INIT.ENT` (R112): with its `kk` entropy words it ends; with fewer it waits (R227). -/
def execDxInitEnt (bb pp kk ss : Word) (s : State) : Host.Outcome State Fault Refusal :=
  match dxCheck s.kkMax.toNat bb.toNat pp.toNat kk.toNat ss.toNat with
  | some detail => .next (s.raise Opcode.dxInitEnt.code .invalidParameter detail)
  | none =>
    match s.drawEntropy kk.toNat with
    | none => .next (s.awaitEntropy (.dxInit bb pp kk ss))
    | some (ws, s') => .next ((s'.setDx (dxSeeded bb pp kk ss ws)).respond Opcode.dxInitEnt.code [])

/-- `DX.NEXT.RAW` (R114). -/
def execDxNextRaw (s : State) : Host.Outcome State Fault Refusal :=
  if s.dx.v = false then .next (s.raise Opcode.dxNextRaw.code .notConfigured 0)
  else match dxStep s with
    | none => .fault .slotAbsent
    | some (v, s') => .next (s'.respond Opcode.dxNextRaw.code [BitVec.ofNat 64 v])

/-- `DX.NEXT.UNIT` (R116): the same step, its value as a binary64 in [0, 1). -/
def execDxNextUnit (s : State) : Host.Outcome State Fault Refusal :=
  if s.dx.v = false then .next (s.raise Opcode.dxNextUnit.code .notConfigured 0)
  else match dxStep s with
    | none => .fault .slotAbsent
    | some (v, s') => .next (s'.respond Opcode.dxNextUnit.code [f64Ratio v s.dx.pp.toNat])

/-- `DX.CLR` (R118). -/
def execDxClr (s : State) : Host.Outcome State Fault Refusal :=
  .next ((s.setDx DxUnit.cleared).respond Opcode.dxClr.code [])

end Sys2Proof.Machine
end

