-- ==== Sys2Proof/Machine/Inspect.lean ====
section
/-!
DEFINITION. State inspection: the values of the selector space and the meanings of `RD.REG` and `RD.SLOT`
(`42_inspection.md`). Neither writes state (R180).
-/

namespace Sys2Proof.Machine

/-- `BLOCK_ID` (`10_state.md` R23). -/
def blockId : Word := 0x4458524500000001

/-- What a register read needs (R181, column "needs"). -/
inductive Need where
  | nothing
  | dxConfigured
  | cmConfigured
  deriving DecidableEq, Repr

/-- The column "needs" of R181. -/
def Selector.need : Selector → Need
  | .blockId | .kkMaxReg | .ppMaxReg | .unitFlags => .nothing
  | .dxBb | .dxPp | .dxKk | .dxSs | .dxCur => .dxConfigured
  | .cmPcgStateLo | .cmPcgStateHi | .cmPcgIncLo | .cmPcgIncHi
  | .cmX1 | .cmC1 | .cmX2 | .cmC2 | .cmBb1 | .cmBb2 => .cmConfigured

/-- The need is met. -/
def Need.met (s : State) : Need → Bool
  | .nothing => true
  | .dxConfigured => s.dx.v
  | .cmConfigured => s.cm.v

/-- The column "value returned" of R181, zero-extended to a word (`20_memory.md` R55 (a)). -/
def Selector.value (s : State) : Selector → Word
  | .blockId => Machine.blockId
  | .kkMaxReg => s.kkMax.setWidth 64
  | .ppMaxReg => BitVec.ofNat 64 ppMax
  | .unitFlags => Machine.unitFlags s
  | .dxBb => s.dx.bb.setWidth 64
  | .dxPp => s.dx.pp.setWidth 64
  | .dxKk => s.dx.kk.setWidth 64
  | .dxSs => s.dx.ss.setWidth 64
  | .dxCur => s.dx.cur.setWidth 64
  | .cmPcgStateLo => s.cm.pcgState.extractLsb' 0 64
  | .cmPcgStateHi => s.cm.pcgState.extractLsb' 64 64
  | .cmPcgIncLo => s.cm.pcgInc.extractLsb' 0 64
  | .cmPcgIncHi => s.cm.pcgInc.extractLsb' 64 64
  | .cmX1 => s.cm.x1
  | .cmC1 => s.cm.c1
  | .cmX2 => s.cm.x2
  | .cmC2 => s.cm.c2
  | .cmBb1 => s.cm.bb1
  | .cmBb2 => s.cm.bb2

/-- `RD.REG` (R182). -/
def execRdReg (sel : Index) (s : State) : Host.Outcome State Fault Refusal :=
  match Selector.ofCode sel with
  | none => .next (s.raise Opcode.rdReg.code .badSelector 0)
  | some r =>
    if r.need.met s then .next (s.respond Opcode.rdReg.code [r.value s])
    else .next (s.raise Opcode.rdReg.code .notConfigured 0)

/-- `RD.SLOT` (R184): the physical slot (R183). -/
def execRdSlot (i : Index) (s : State) : Host.Outcome State Fault Refusal :=
  if s.dx.v = false then .next (s.raise Opcode.rdSlot.code .notConfigured 0)
  else if s.dx.kk.toNat ≤ i.toNat then .next (s.raise Opcode.rdSlot.code .badSelector 0)
  else match s.readSlot i.toNat with
    | none => .fault .slotAbsent
    | some v => .next (s.respond Opcode.rdSlot.code [v.setWidth 64])

end Sys2Proof.Machine
end

