-- ==== Sys2Proof/Machine/Dispatch.lean ====
section
/-! DEFINITION. One arm per command of the opcode table (`30_encoding.md` R72). -/

namespace Sys2Proof.Machine

def exec (i : Instr) (s : State) : Host.Outcome State Fault Refusal :=
  match i with
  | .dxInitSeed bb pp kk ss seed => Sys2Proof.Machine.execDxInitSeed bb pp kk ss seed s
  | .dxInitEnt bb pp kk ss => Sys2Proof.Machine.execDxInitEnt bb pp kk ss s
  | .dxNextRaw => Sys2Proof.Machine.execDxNextRaw s
  | .dxNextUnit => Sys2Proof.Machine.execDxNextUnit s
  | .dxClr => Sys2Proof.Machine.execDxClr s
  | .cmInitSeed bb1 bb2 seed => Sys2Proof.Machine.execCmInitSeed bb1 bb2 seed s
  | .cmInitEnt bb1 bb2 => Sys2Proof.Machine.execCmInitEnt bb1 bb2 s
  | .cmNextRaw => Sys2Proof.Machine.execCmNextRaw s
  | .cmNextUnit => Sys2Proof.Machine.execCmNextUnit s
  | .cmClr => Sys2Proof.Machine.execCmClr s
  | .rdReg sel => Sys2Proof.Machine.execRdReg sel s
  | .rdSlot idx => Sys2Proof.Machine.execRdSlot idx s

end Sys2Proof.Machine
end

