-- ==== Sys2Proof/Machine/Control.lean ====
section
/-!
DEFINITION. What stands around a command: framing (`30_encoding.md` R74), decode and its error (R75), response back-pressure
(`70_reset_and_hazards.md` R229), and an `*.INIT.ENT` command that waits for entropy (R227).
-/

namespace Sys2Proof.Machine

/-- What the parser has after taking the words there are. -/
inductive Fetched where
  /-- No whole packet yet: the words taken are kept. -/
  | incomplete (s : State)
  /-- A whole packet, and the state without its words, expecting a header. -/
  | packet (p : Packet) (s : State)
  deriving DecidableEq, Repr

/-- Takes operand words for header `h` out of `ws`, everything after that header (R74). -/
def collect (h : Word) (ws : List Word) (s : State) : Fetched :=
  let n := (Header.narg h).toNat
  if n ≤ ws.length then .packet ⟨h, ws.take n⟩ { s with parser := .header, cmdIn := ws.drop n }
  else .incomplete { s with parser := .operands h ws, cmdIn := [] }

/-- The parser on the words of the command channel (R74). -/
def fetch (s : State) : Fetched :=
  match s.parser, s.cmdIn with
  | .header, [] => .incomplete s
  | .header, h :: ws => collect h ws s
  | .operands h got, ws => collect h (got ++ ws) s

/-- Decodes and executes a packet; a packet that is no command gets ILLEGAL_CMD (R75). -/
def runPacket (p : Packet) (s : State) : Host.Outcome State Fault Refusal :=
  match decode p with
  | .ok i => exec i s
  | .error e => .next (s.raise (Header.op p.header) .illegalCmd e.detail)

/-- The command that goes from `s` to `t` can queue its whole response: the words `t` has queued, and one word for a command
that has not ended (R229). DESIGN CHOICE, log entry 5: unsafe only for which step starts a command with one word of room. -/
def roomFor (s t : State) : Bool := s.respOut.length + 1 ≤ s.respCap && t.respOut.length ≤ s.respCap

/-- Starts a command from state `s`, before its packet is taken, only if its whole response can be queued; else nothing
happens (R229). That a whole packet which cannot start is left untaken is DESIGN CHOICE, log entry 16 (see `advance`). -/
def startIfRoom (s : State) : Host.Outcome State Fault Refusal → Host.Outcome State Fault Refusal
  | .next t => if roomFor s t then .next t else .next s
  | .fault f => .fault f
  | .refused r => .refused r

/-- The command an entropy wait belongs to. -/
def EntropyCmd.instr : EntropyCmd → Instr
  | .dxInit bb pp kk ss => .dxInitEnt bb pp kk ss
  | .cmInit bb1 bb2 => .cmInitEnt bb1 bb2

/-- A waiting `*.INIT.ENT` goes on with the words that have come (R227). -/
def resume (w : EntropyWait) (s : State) : Host.Outcome State Fault Refusal := exec w.cmd.instr (s.resumeWith w)

/-- One step with `rst` released. R229 says that a block without room for a response stops taking command words, not at which
word. DESIGN CHOICE, log entry 16: the words of an incomplete packet are taken into the parser all the same, while those of a
packet that is whole stay untaken until it can start. Unsafe only for a statement about where the words not yet executed
stand while there is no room. -/
def advance (s : State) : Host.Outcome State Fault Refusal :=
  match s.wait with
  | some w => resume w s
  | none =>
    match fetch s with
    | .incomplete t => .next t
    | .packet p t => startIfRoom s (runPacket p t)

end Sys2Proof.Machine
end

