-- ==== Sys2Proof/Machine/Step.lean ====
section
/-!
DEFINITION. One step of the block: reset while `rst` is asserted (`70_reset_and_hazards.md` R220), else the waiting command
or the next packet (`20_memory.md` R56, `10_state.md` R34).
-/

namespace Sys2Proof.Machine

/-- One step. -/
def step (s : State) : Host.Outcome State Fault Refusal :=
  if s.rst then .next s.applyReset else advance s

/-- The state with the instruction whose bits are `w` at the head of the command channel, and with all that the very next
step needs to run it: `rst` released, no command waiting, a header expected, and room for a response (log entry 8). -/
def State.withFetchWord (s : State) (nbits w : Nat) : State :=
  { s with
    rst := false
    wait := none
    parser := .header
    cmdIn := tableWords nbits w ++ s.cmdIn
    respCap := max s.respCap Config.respCapLeast
    respOut := if s.respOut.length + Config.respCapLeast ≤ s.respCap then s.respOut else [] }

end Sys2Proof.Machine
end

