-- ==== Sys2Proof/Safety.lean ====
section
/-!
DEFINITION. What holds of the block in every state a host can bring it to: the invariants of `10_state.md` R26, R28 and R32,
what an unconfigured unit holds (R36), and what the parser, the response queue and a waiting command keep to. `Reachable`
are the states that arise from reset through steps and through anything the outside may do on the ports (R219).
-/

namespace Sys2Proof.Machine

/-- The DX unit while `DXV` = 1 (R28, and R26 for the dead slots), in a block of capacity `kkMax`. -/
structure DxUnit.Live (kkMax : Nat) (d : DxUnit) : Prop where
  bb_lt : d.bb.toNat < d.pp.toNat
  pp_prime : isPrime d.pp.toNat = true
  kk_ge : 2 ≤ d.kk.toNat
  kk_le : d.kk.toNat ≤ kkMax
  ss_pos : 0 < d.ss.toNat
  ss_lt : d.ss.toNat < d.kk.toNat
  cur_lt : d.cur.toNat < d.kk.toNat
  slot_lt : ∀ i, i < d.kk.toNat → (d.slots.read i).toNat < d.pp.toNat
  slot_nonzero : ∃ i, i < d.kk.toNat ∧ d.slots.read i ≠ 0
  dead_zero : ∀ c ∈ d.slots, c.1 < d.kk.toNat

/-- The DX unit in every state: the canonical form of its buffer, R28 while it is configured, all 0 while it is not. -/
structure DxUnit.Inv (kkMax : Nat) (d : DxUnit) : Prop where
  wf : d.slots.wf
  live : d.v = true → d.Live kkMax
  clear : d.v = false → d = DxUnit.cleared

/-- A fixed point of a lane's step (R32 (d)). -/
def LaneFixed (bb x c : Word) : Prop := (x = 0 ∧ c = 0) ∨ (x.toNat = 2 ^ 64 - 1 ∧ c.toNat = bb.toNat - 1)

/-- The CM unit while `CMV` = 1 (R32). -/
structure CmUnit.Live (c : CmUnit) : Prop where
  bb1_ne : c.bb1 ≠ 0
  bb2_ne : c.bb2 ≠ 0
  inc_odd : c.pcgInc.toNat % 2 = 1
  c1_lt : c.c1.toNat < c.bb1.toNat
  c2_lt : c.c2.toNat < c.bb2.toNat
  lane1 : ¬LaneFixed c.bb1 c.x1 c.c1
  lane2 : ¬LaneFixed c.bb2 c.x2 c.c2

/-- The CM unit in every state: R32 while it is configured, all 0 while it is not (R36). -/
structure CmUnit.Inv (c : CmUnit) : Prop where
  live : c.v = true → c.Live
  clear : c.v = false → c = CmUnit.cleared

/-- A packet the parser has begun is not yet whole (R74). -/
def Parser.Inv : Parser → Prop
  | .header => True
  | .operands h got => got.length < (Header.narg h).toNat

/-- The parameter check of a command that draws entropy, passed (R101, R140). -/
def EntropyCmd.checked (kkMax : Nat) : EntropyCmd → Prop
  | .dxInit bb pp kk ss => dxCheck kkMax bb.toNat pp.toNat kk.toNat ss.toNat = none
  | .cmInit bb1 bb2 => cmCheck bb1.toNat bb2.toNat = none

/-- A waiting command has passed its check, lacks words, and has room for its response; the parser expects a header
(R74, R227, R229). -/
structure State.WaitInv (s : State) (w : EntropyWait) : Prop where
  checked : w.cmd.checked s.kkMax.toNat
  short : w.drawn.length < w.cmd.needs
  room : s.respOut.length + 1 ≤ s.respCap
  parser : s.parser = .header

/-- The invariant of the block. -/
structure State.Inv (s : State) : Prop where
  kkMax_ge : Config.kkMaxLeast ≤ s.kkMax.toNat
  respCap_ge : Config.respCapLeast ≤ s.respCap
  resp_fits : s.respOut.length ≤ s.respCap
  dx : s.dx.Inv s.kkMax.toNat
  cm : s.cm.Inv
  parser : s.parser.Inv
  wait : ∀ w, s.wait = some w → s.WaitInv w

/-- The states a block can be brought to: from reset, in any configuration R6 allows, by its own steps, by the host and by
the entropy source, which may deliver any words (R227). -/
inductive Reachable : State → Prop where
  | reset (kkMax : Index) (respCap : Nat) (hk : Config.kkMaxLeast ≤ kkMax.toNat) (hr : Config.respCapLeast ≤ respCap) :
      Reachable (State.resetWith kkMax respCap)
  | step {s t : State} : Reachable s → Machine.step s = .next t → Reachable t
  | send {s : State} (w : Word) : Reachable s → Reachable (s.sendWord w)
  | take {s t : State} {w : Word} : Reachable s → s.takeResponse = some (w, t) → Reachable t
  | entropy {s : State} (ws : List Word) : Reachable s → Reachable { s with entropyIn := s.entropyIn ++ ws }
  | assertReset {s : State} : Reachable s → Reachable s.assertReset
  | releaseReset {s : State} : Reachable s → Reachable s.releaseReset

/-- A step that goes on: neither a fault nor a refusal. -/
def GoesOn (s : State) : Prop := ∃ t, Machine.step s = .next t

/-- `k` executions of one command in a row, each in the state the one before left; none if one of them stops. -/
def execTimes (i : Instr) : Nat → State → Option State
  | 0, s => some s
  | k + 1, s =>
    match exec i s with
    | .next t => execTimes i k t
    | .fault _ => none
    | .refused _ => none

/-- `x[n - j]` of the logical view, for `1 <= j <= DX_KK` (R27). -/
def DxUnit.logical (d : DxUnit) (j : Nat) : Nat :=
  (d.slots.read ((d.cur.toNat + 1 + d.kk.toNat - j) % d.kk.toNat)).toNat

/-- The words taken from the command channel and not yet executed: the parser's and those behind them. -/
def State.pendingWords (s : State) : List Word :=
  match s.parser with
  | .header => s.cmdIn
  | .operands h got => h :: (got ++ s.cmdIn)

end Sys2Proof.Machine
end

