-- ==== Sys2Proof/Certificates/Slice0/Obligations.lean ====
section
/-!
DEFINITION. The statements for the provers. Section 1 writes the spec's pseudocode again over plain numbers (`00_scope.md`
R7: every value in pseudocode is an unbounded non-negative integer), apart from the model's own functions, so that a
statement about a result says what the rule says and not what the model computes. Section 2 states the obligations.
-/

namespace Sys2Proof.Claims

open Sys2Proof.Machine

/-! # 1. The rules over plain numbers -/

/-- `isPrime(n)` as R8 words it. -/
def PrimeByDivisors (n : Nat) : Prop := 2 ≤ n ∧ ∀ d, 1 < d → d < n → ¬d ∣ n

/-- The state `sm_next(s)` leaves (R100). -/
def smStateNat (s : Nat) : Nat := (s + 0x9E3779B97F4A7C15) % 2 ^ 64

/-- The word `sm_next` returns when it leaves the state `s'` (R100). -/
def smWordNat (s' : Nat) : Nat :=
  let z1 := ((s' ^^^ (s' >>> 30)) * 0xBF58476D1CE4E5B9) % 2 ^ 64
  let z2 := ((z1 ^^^ (z1 >>> 27)) * 0x94D049BB133111EB) % 2 ^ 64
  z2 ^^^ (z2 >>> 31)

/-- The expansion state after `k` calls of `sm_next` from `s` (R100). -/
def smStatesNat (s : Nat) : Nat → Nat
  | 0 => s
  | k + 1 => smStateNat (smStatesNat s k)

/-- `w[i]` of `seedwords(s, n)`, for `i < n` (R100): the word of the `i+1`-th call. -/
def seedwordNat (s i : Nat) : Nat := smWordNat (smStatesNat s (i + 1))

/-- The status word (R77) as a number. -/
def statusNat (ecode edetail opecho : Nat) (dxv cmv : Bool) (ndata : Nat) : Nat :=
  ndata * 2 ^ 32 + cmv.toNat * 2 ^ 25 + dxv.toNat * 2 ^ 24 + opecho * 2 ^ 16 + edetail * 2 ^ 8 + ecode

/-- Between `s` and `t` the block queued one response: this status word, with the flags as they are in `t`, and these data
words (R70, R77). -/
def Responds (s t : State) (ecode edetail opecho : Nat) (data : List Nat) : Prop :=
  ∃ ws : List Word, t.respOut = s.respOut ++ ws ∧
    ws.map BitVec.toNat = statusNat ecode edetail opecho t.dx.v t.cm.v data.length :: data

/-- Nothing but the response queue changed. -/
def OnlyResponse (s t : State) : Prop := t = { s with respOut := t.respOut }

/-- A command of opcode `opecho` went from `s` to `t` and from `s'` to `t'` alike: either it waits in both for the same words
and has sent nothing (R227), or it ended in both, leaving the wait as it was, with the same code, detail and data words, each
status word carrying the flags of its own state (R77). -/
def AnswersAlike (s t s' t' : State) (opecho : Nat) : Prop :=
  (t.wait ≠ none ∧ t'.wait = t.wait ∧ t.respOut = s.respOut ∧ t'.respOut = s'.respOut) ∨
  (t.wait = s.wait ∧ t'.wait = s'.wait ∧ ∃ ecode edetail data, ecode < 2 ^ 8 ∧ edetail < 2 ^ 8 ∧
    Responds s t ecode edetail opecho data ∧ Responds s' t' ecode edetail opecho data)

/-- The outcome is the error `ecode(edetail)` and nothing else (R203). -/
def Fails (s : State) (o : Host.Outcome State Fault Refusal) (ecode edetail opecho : Nat) : Prop :=
  ∃ t, o = .next t ∧ Responds s t ecode edetail opecho [] ∧ OnlyResponse s t

/-- The reserved opcodes (R73). -/
def Reserved (op : Nat) : Prop := op = 0x00 ∨ (0x06 ≤ op ∧ op ≤ 0x10) ∨ (0x16 ≤ op ∧ op ≤ 0x20) ∨ 0x23 ≤ op

/-- The four conditions of R101 hold. -/
def DxParametersLegal (s : State) (bb pp kk ss : Word) : Prop :=
  (0 < ss.toNat ∧ ss.toNat < kk.toNat) ∧ (PrimeByDivisors pp.toNat ∧ pp.toNat ≤ 2 ^ 31 - 1) ∧
    (1 ≤ kk.toNat ∧ kk.toNat ≤ s.kkMax.toNat) ∧ bb.toNat < pp.toNat

/-- What `dx_check` (R101) answers for a command of opcode `op` whose outcome in `s` is `o`, in its order. -/
def DxCheckAnswers (s : State) (bb pp kk ss : Word) (op : Nat) (o : Host.Outcome State Fault Refusal) : Prop :=
  (¬(0 < ss.toNat ∧ ss.toNat < kk.toNat) → Fails s o 2 3 op) ∧
  ((0 < ss.toNat ∧ ss.toNat < kk.toNat) → ¬(PrimeByDivisors pp.toNat ∧ pp.toNat ≤ 2 ^ 31 - 1) → Fails s o 2 1 op) ∧
  ((0 < ss.toNat ∧ ss.toNat < kk.toNat) → (PrimeByDivisors pp.toNat ∧ pp.toNat ≤ 2 ^ 31 - 1) →
    ¬(1 ≤ kk.toNat ∧ kk.toNat ≤ s.kkMax.toNat) → Fails s o 2 2 op) ∧
  ((0 < ss.toNat ∧ ss.toNat < kk.toNat) → (PrimeByDivisors pp.toNat ∧ pp.toNat ≤ 2 ^ 31 - 1) →
    (1 ≤ kk.toNat ∧ kk.toNat ≤ s.kkMax.toNat) → ¬bb.toNat < pp.toNat → Fails s o 2 0 op)

/-- The unit holds what R104 to R106 leave for these operands and source words `w[0 .. kk-1]`. -/
def DxHolds (d : DxUnit) (bb pp kk ss : Nat) (w : Nat → Nat) : Prop :=
  d.v = true ∧ d.bb.toNat = bb ∧ d.pp.toNat = pp ∧ d.kk.toNat = kk ∧ d.ss.toNat = ss ∧ d.cur.toNat = kk - 1 ∧
  ((∃ j, j < kk ∧ w j % pp ≠ 0) → ∀ i, i < kk → (d.slots.read i).toNat = w i % pp) ∧
  ((∀ j, j < kk → w j % pp = 0) → ∀ i, i < kk → (d.slots.read i).toNat = if i = 0 then 1 else 0) ∧
  ∀ i, kk ≤ i → d.slots.read i = 0

/-- `PCG_MUL` (R6). -/
def pcgMulNat : Nat := 0x2360ED051FC65DA44385DF649FCCF645

/-- `pcg_lcg` (R143). -/
def pcgLcgNat (st inc : Nat) : Nat := (st * pcgMulNat + inc) % 2 ^ 128

/-- `rotr64` (R8). -/
def rotr64Nat (v r : Nat) : Nat := ((v >>> r) ||| (v <<< (64 - r))) % 2 ^ 64

/-- `pcg_out` (R143). -/
def pcgOutNat (st : Nat) : Nat := rotr64Nat ((st / 2 ^ 64) ^^^ (st % 2 ^ 64)) (st / 2 ^ 122)

/-- The increment `pcg_seed` returns (R144). -/
def pcgIncNat (w : Nat → Nat) : Nat := (((w 2 * 2 ^ 64 + w 3) <<< 1) ||| 1) % 2 ^ 128

/-- The state `pcg_seed` returns (R144). -/
def pcgStateNat (w : Nat → Nat) : Nat :=
  pcgLcgNat ((pcgLcgNat 0 (pcgIncNat w) + (w 0 * 2 ^ 64 + w 1)) % 2 ^ 128) (pcgIncNat w)

/-- `x2` of `lane_seed`, after the adjustment (R147). -/
def laneX2Nat (x1 c1 x2 c2 : Nat) : Nat :=
  if x2 = x1 ∧ c2 = c1 then (if x2 < 2 ^ 64 - 2 then x2 + 1 else 1) else x2

/-- The unit holds what R144, R147 and R148 leave for these multipliers and source words `w[0 .. 7]`. -/
def CmHolds (c : CmUnit) (bb1 bb2 : Nat) (w : Nat → Nat) : Prop :=
  c.v = true ∧ c.pcgState.toNat = pcgStateNat w ∧ c.pcgInc.toNat = pcgIncNat w ∧
  c.x1.toNat = w 4 % (2 ^ 64 - 2) + 1 ∧ c.c1.toNat = w 5 % bb1 ∧
  c.x2.toNat = laneX2Nat (w 4 % (2 ^ 64 - 2) + 1) (w 5 % bb1) (w 6 % (2 ^ 64 - 2) + 1) (w 7 % bb2) ∧
  c.c2.toNat = w 7 % bb2 ∧ c.bb1.toNat = bb1 ∧ c.bb2.toNat = bb2

/-- `t` of a lane step (R151). -/
def laneT (bb x c : Word) : Nat := bb.toNat * x.toNat + c.toNat

/-- What `cm_step` returns (R154). -/
def cmOutNat (c : CmUnit) : Nat :=
  (pcgOutNat (pcgLcgNat c.pcgState.toNat c.pcgInc.toNat) +
    (laneT c.bb1 c.x1 c.c1 % 2 ^ 64 + laneT c.bb2 c.x2 c.c2 % 2 ^ 64) % 2 ^ 64) % 2 ^ 64

/-- From `s` to `t` the CM unit made the step of R154, and nothing else changed but the response queue. -/
def CmStepped (s t : State) : Prop :=
  t = { s with
    cm := { s.cm with pcgState := t.cm.pcgState, x1 := t.cm.x1, c1 := t.cm.c1, x2 := t.cm.x2, c2 := t.cm.c2 }
    respOut := t.respOut } ∧
  t.cm.pcgState.toNat = pcgLcgNat s.cm.pcgState.toNat s.cm.pcgInc.toNat ∧
  t.cm.x1.toNat = laneT s.cm.bb1 s.cm.x1 s.cm.c1 % 2 ^ 64 ∧ t.cm.c1.toNat = laneT s.cm.bb1 s.cm.x1 s.cm.c1 / 2 ^ 64 ∧
  t.cm.x2.toNat = laneT s.cm.bb2 s.cm.x2 s.cm.c2 % 2 ^ 64 ∧ t.cm.c2.toNat = laneT s.cm.bb2 s.cm.x2 s.cm.c2 / 2 ^ 64

/-- `o` of `dx_step` (R107), the slot of the oldest value. -/
def oldestNat (d : DxUnit) : Nat := (d.cur.toNat + 1) % d.kk.toNat

/-- `l` of `dx_step` (R107), the slot of `x[n-ss]`. -/
def laggedNat (d : DxUnit) : Nat := (d.cur.toNat + 1 + d.kk.toNat - d.ss.toNat) % d.kk.toNat

/-- `v` of `dx_step` (R107), the value it returns. -/
def dxValueNat (d : DxUnit) : Nat :=
  (d.bb.toNat * (d.slots.read (laggedNat d)).toNat + (d.slots.read (oldestNat d)).toNat) % d.pp.toNat

/-- From `s` to `t` the DX unit made the step of R107, and nothing else changed but the response queue. -/
def DxStepped (s t : State) : Prop :=
  t = { s with dx := { s.dx with slots := t.dx.slots, cur := t.dx.cur }, respOut := t.respOut } ∧
  t.dx.cur.toNat = oldestNat s.dx ∧ (t.dx.slots.read (oldestNat s.dx)).toNat = dxValueNat s.dx ∧
  ∀ j, j ≠ oldestNat s.dx → t.dx.slots.read j = s.dx.slots.read j

/-- What a register read needs (R181). -/
def needHolds (s : State) : Nat → Bool
  | 0 => true
  | 1 => s.dx.v
  | _ => s.cm.v

/-- The selector map (R181): selector, what it needs (0 nothing, 1 `DXV`, 2 `CMV`), value. -/
def selectorMap (s : State) : List (Nat × Nat × Nat) :=
  [(0x0000, 0, 0x4458524500000001), (0x0001, 0, s.kkMax.toNat), (0x0002, 0, 2147483647),
   (0x0003, 0, s.cm.v.toNat <<< 1 ||| s.dx.v.toNat),
   (0x0010, 1, s.dx.bb.toNat), (0x0011, 1, s.dx.pp.toNat), (0x0012, 1, s.dx.kk.toNat), (0x0013, 1, s.dx.ss.toNat),
   (0x0014, 1, s.dx.cur.toNat),
   (0x0020, 2, s.cm.pcgState.toNat % 2 ^ 64), (0x0021, 2, s.cm.pcgState.toNat / 2 ^ 64),
   (0x0022, 2, s.cm.pcgInc.toNat % 2 ^ 64), (0x0023, 2, s.cm.pcgInc.toNat / 2 ^ 64),
   (0x0024, 2, s.cm.x1.toNat), (0x0025, 2, s.cm.c1.toNat), (0x0026, 2, s.cm.x2.toNat), (0x0027, 2, s.cm.c2.toNat),
   (0x0028, 2, s.cm.bb1.toNat), (0x0029, 2, s.cm.bb2.toNat)]

/-- The commands of the DX unit (R72). -/
def ofDx : Instr → Bool
  | .dxInitSeed _ _ _ _ _ | .dxInitEnt _ _ _ _ | .dxNextRaw | .dxNextUnit | .dxClr => true
  | .cmInitSeed _ _ _ | .cmInitEnt _ _ | .cmNextRaw | .cmNextUnit | .cmClr | .rdReg _ | .rdSlot _ => false

/-- The commands of the CM unit (R72). -/
def ofCm : Instr → Bool
  | .cmInitSeed _ _ _ | .cmInitEnt _ _ | .cmNextRaw | .cmNextUnit | .cmClr => true
  | .dxInitSeed _ _ _ _ _ | .dxInitEnt _ _ _ _ | .dxNextRaw | .dxNextUnit | .dxClr | .rdReg _ | .rdSlot _ => false

/-- The two inspection commands (R72). -/
def isRead : Instr → Bool
  | .rdReg _ | .rdSlot _ => true
  | .dxInitSeed _ _ _ _ _ | .dxInitEnt _ _ _ _ | .dxNextRaw | .dxNextUnit | .dxClr
  | .cmInitSeed _ _ _ | .cmInitEnt _ _ | .cmNextRaw | .cmNextUnit | .cmClr => false

/-- The row of R37 for a command that went from `s` to `t`: what it may have written, everything else being as it was. The
channel state of the two `*.INIT.ENT` commands is R227's. -/
def WritesOnly (s t : State) : Instr → Prop
  | .dxInitSeed _ _ _ _ _ => t = { s with dx := t.dx, respOut := t.respOut }
  | .dxInitEnt _ _ _ _ =>
    t = { s with dx := t.dx, respOut := t.respOut, entropyIn := t.entropyIn, wait := t.wait }
  | .dxNextRaw | .dxNextUnit =>
    t = { s with dx := { s.dx with slots := t.dx.slots, cur := t.dx.cur }, respOut := t.respOut } ∧
      ∀ j, j ≠ oldestNat s.dx → t.dx.slots.read j = s.dx.slots.read j
  | .dxClr => t = { s with dx := DxUnit.cleared, respOut := t.respOut }
  | .cmInitSeed _ _ _ => t = { s with cm := t.cm, respOut := t.respOut }
  | .cmInitEnt _ _ =>
    t = { s with cm := t.cm, respOut := t.respOut, entropyIn := t.entropyIn, wait := t.wait }
  | .cmNextRaw | .cmNextUnit =>
    t = { s with
      cm := { s.cm with pcgState := t.cm.pcgState, x1 := t.cm.x1, c1 := t.cm.c1, x2 := t.cm.x2, c2 := t.cm.c2 }
      respOut := t.respOut }
  | .cmClr => t = { s with cm := CmUnit.cleared, respOut := t.respOut }
  | .rdReg _ | .rdSlot _ => OnlyResponse s t

/-- The block is ready for a packet: `rst` released, no command waiting, a header expected. -/
def Idle (s : State) : Prop := s.rst = false ∧ s.wait = none ∧ s.parser = .header

/-- `NARG` of a header, bits 15:8 (R71). -/
def nargNat (h : Word) : Nat := h.toNat / 2 ^ 8 % 2 ^ 8

end Sys2Proof.Claims

/-! # 2. The obligations -/

open Sys2Proof Sys2Proof.Machine Sys2Proof.Claims

/-- Encoding by R71 and R72, then decoding by R75, gives back every command with every operand. -/
def Obligations.DecodeOfEncodeIsTheCommand : Prop := ∀ i : Instr, decode (encode i) = .ok i

/-- A packet that decodes is the encoding of the command it decodes to: no header bit and no operand is ignored (R75). -/
def Obligations.EncodeOfDecodeIsThePacket : Prop := ∀ (p : Packet) (i : Instr), decode p = .ok i → encode i = p

/-- The decoder accepts exactly the packets that are framed (R74) and pass the four checks of R75, as `WellFormed.lean` puts
them on the header's number. -/
def Obligations.DecodeAcceptsExactlyTheLegalPackets : Prop :=
  ∀ p : Packet, (∃ i, decode p = .ok i) ↔ p.wellFormed = true

/-- R75: the checks in their order, each failure ILLEGAL_CMD with its detail and nothing written; a packet that passes is
executed as the command it encodes. -/
def Obligations.IllegalPacketsAnswerTheFirstFailedCheck : Prop :=
  ∀ (p : Packet) (s : State), p.framed = true →
    (p.opListed = false → Fails s (runPacket p s) 1 0x01 (p.header.toNat % 2 ^ 8)) ∧
    (p.opListed = true → p.nargRight = false → Fails s (runPacket p s) 1 0x02 (p.header.toNat % 2 ^ 8)) ∧
    (p.opListed = true → p.nargRight = true → p.immUsedOrZero = false →
      Fails s (runPacket p s) 1 0x03 (p.header.toNat % 2 ^ 8)) ∧
    (p.opListed = true → p.nargRight = true → p.immUsedOrZero = true → p.rsvZero = false →
      Fails s (runPacket p s) 1 0x04 (p.header.toNat % 2 ^ 8)) ∧
    (p.wellFormed = true → ∃ i, encode i = p ∧ runPacket p s = exec i s)

/-- R73: the 244 reserved opcodes, each answered with ILLEGAL_CMD and detail 0x01 whatever the rest of the packet is. -/
def Obligations.ReservedOpcodesAreIllegal : Prop :=
  (∀ (p : Packet) (s : State), Reserved (p.header.toNat % 2 ^ 8) →
    Fails s (runPacket p s) 1 0x01 (p.header.toNat % 2 ^ 8)) ∧
  (∀ op : Nat, op < 256 → (Reserved op ↔ opcodeShape op = none)) ∧
  ((List.range 256).filter fun op => (opcodeShape op).isNone).length = 244

/-- Words written out from R72 and R71, and the commands they stand for. -/
def Obligations.WrittenOutWordsDecode : Prop :=
  decodeWords [0x0000000000000501, 3, 101, 5, 2, 0] = .ok (.dxInitSeed 3 101 5 2 0, []) ∧
  decodeWords [0x0000000000000212, 2, 3, 0x13] = .ok (.cmInitEnt 2 3, [0x13]) ∧
  decodeWords [0x0000000000140021] = .ok (.rdReg 0x0014, []) ∧
  decodeWords [0x0000000000030022] = .ok (.rdSlot 3, []) ∧
  decodeWords [0x0000000000000206, 7, 8] = .error (.illegal .reservedOp)

/-- R74: with room for a response, the header and exactly `NARG` words after it are taken, whatever the opcode; only a whole
packet is executed, and then a header is expected again; a packet short of words is kept as it is and nothing else happens. -/
def Obligations.FramingTakesTheHeaderAndItsOperands : Prop :=
  ∀ (s : State) (h : Word) (ws : List Word), s.rst = false → s.wait = none → s.respOut.length + 2 ≤ s.respCap →
    (s.parser = .header ∧ s.cmdIn = h :: ws ∨ ∃ got more, s.parser = .operands h got ∧ s.cmdIn = more ∧ ws = got ++ more) →
    (nargNat h ≤ ws.length →
      Machine.step s = runPacket ⟨h, ws.take (nargNat h)⟩ { s with parser := .header, cmdIn := ws.drop (nargNat h) } ∧
      ∀ t, Machine.step s = .next t → t.parser = .header ∧ t.cmdIn = ws.drop (nargNat h)) ∧
    (ws.length < nargNat h → Machine.step s = .next { s with parser := .operands h ws, cmdIn := [] })

/-- R74: a packet whose words arrive in two pieces has the effect it has when they arrive together. -/
def Obligations.PacketsMayArriveInPieces : Prop :=
  ∀ (s : State) (h : Word) (ws vs : List Word), Idle s → s.respOut.length + 2 ≤ s.respCap → s.cmdIn = h :: ws →
    ws.length < nargNat h → nargNat h ≤ (ws ++ vs).length →
    ∃ t, Machine.step s = .next t ∧ t = { s with parser := t.parser, cmdIn := t.cmdIn } ∧
      Machine.step { t with cmdIn := vs } = Machine.step { s with cmdIn := h :: (ws ++ vs) }

/-- A step runs the decoded command: the packet at the head of the command channel leaves it and is executed, if the whole
response can be queued (R229); if not, the block does not start it, and that the state then stays as it is, the packet untaken,
is the model's choice (log entry 16). -/
def Obligations.StepRunsTheDecodedCommand : Prop :=
  ∀ (s : State) (p : Packet) (rest : List Word) (i : Instr), Idle s → packetOfWords s.cmdIn = some (p, rest) →
    decode p = .ok i →
    (∀ t, exec i { s with cmdIn := rest } = .next t → s.respOut.length + 1 ≤ s.respCap → t.respOut.length ≤ s.respCap →
      Machine.step s = .next t) ∧
    (∀ t, exec i { s with cmdIn := rest } = .next t → (s.respCap < s.respOut.length + 1 ∨ s.respCap < t.respOut.length) →
      Machine.step s = .next s) ∧
    (∀ f, exec i { s with cmdIn := rest } = .fault f → Machine.step s = .fault f)

/-- R70 and R77: a packet, legal or not, gets exactly one response, unless it is an `*.INIT.ENT` that has yet to get its
entropy; an error has no data word, and a success the number R72 lists. -/
def Obligations.EveryPacketGetsOneResponse : Prop :=
  ∀ (p : Packet) (s t : State), s.wait = none → runPacket p s = .next t →
    (t.wait ≠ none ∧ t.respOut = s.respOut) ∨
    (t.wait = none ∧ ∃ ecode edetail data, Responds s t ecode edetail (p.header.toNat % 2 ^ 8) data ∧ ecode ≤ 4 ∧
      edetail ≤ 4 ∧ (ecode = 0 → edetail = 0 ∧ ∀ i, decode p = .ok i → data.length = i.opcode.ndata) ∧
      (ecode ≠ 0 → data = []))

/-- R203: a command that ends in an error changed nothing and sent the status word alone; a command that has not ended has
changed no register, slot or flag. -/
def Obligations.ErrorsWriteNothing : Prop :=
  ∀ (p : Packet) (s t : State), runPacket p s = .next t →
    (∀ ecode edetail opecho data, 0 < ecode → ecode < 2 ^ 8 → edetail < 2 ^ 8 → opecho < 2 ^ 8 →
      Responds s t ecode edetail opecho data → data = [] ∧ OnlyResponse s t) ∧
    (t.respOut = s.respOut → t.dx = s.dx ∧ t.cm = s.cm)

/-- R22: after a command, the flags are what the rule says, and reset leaves both 0; a packet that ends is answered by a status
word with the flags as they are after it in bits 24 and 25 (the code and the detail are bytes, so they reach neither bit), and
selector 0x0003 reads them. -/
def Obligations.FlagsHaveTheWritersOfR22 : Prop :=
  (∀ (i : Instr) (s t : State), exec i s = .next t →
    (∀ edetail data opecho ecode, 0 < ecode → ecode < 2 ^ 8 → edetail < 2 ^ 8 → opecho < 2 ^ 8 →
      Responds s t ecode edetail opecho data → t.dx.v = s.dx.v ∧ t.cm.v = s.cm.v) ∧
    (∀ data opecho, opecho < 2 ^ 8 → Responds s t 0 0 opecho data →
      t.dx.v = (match i with
        | .dxInitSeed _ _ _ _ _ | .dxInitEnt _ _ _ _ => true
        | .dxClr => false
        | .dxNextRaw | .dxNextUnit | .cmInitSeed _ _ _ | .cmInitEnt _ _ | .cmNextRaw | .cmNextUnit | .cmClr
        | .rdReg _ | .rdSlot _ => s.dx.v) ∧
      t.cm.v = (match i with
        | .cmInitSeed _ _ _ | .cmInitEnt _ _ => true
        | .cmClr => false
        | .dxInitSeed _ _ _ _ _ | .dxInitEnt _ _ _ _ | .dxNextRaw | .dxNextUnit | .dxClr | .cmNextRaw | .cmNextUnit
        | .rdReg _ | .rdSlot _ => s.cm.v))) ∧
  (∀ (s t : State), s.rst = true → Machine.step s = .next t → t.dx.v = false ∧ t.cm.v = false) ∧
  (∀ (p : Packet) (s t : State), runPacket p s = .next t → (t.wait ≠ none ∧ t.respOut = s.respOut) ∨
    ∃ ecode edetail data, ecode < 2 ^ 8 ∧ edetail < 2 ^ 8 ∧
      Responds s t ecode edetail (p.header.toNat % 2 ^ 8) data) ∧
  ∀ s : State, ∃ t, exec (.rdReg 0x0003) s = .next t ∧ Responds s t 0 0 0x21 [2 * s.cm.v.toNat + s.dx.v.toNat]

/-- R37: what each command writes, every register, slot, flag and word not named there being as it was; in an error, nothing
but the response; and the two clears cannot fail. -/
def Obligations.CommandsWriteOnlyWhatR37Lists : Prop :=
  ∀ (i : Instr) (s t : State), exec i s = .next t → WritesOnly s t i ∧
    ∀ ecode edetail opecho data, 0 < ecode → ecode < 2 ^ 8 → edetail < 2 ^ 8 → opecho < 2 ^ 8 →
      Responds s t ecode edetail opecho data → OnlyResponse s t ∧ i ≠ .dxClr ∧ i ≠ .cmClr

/-- R100: `sm_next` and `seedwords`, and the first word of seed 0. -/
def Obligations.SeedExpansionIsSplitMix : Prop :=
  (∀ s : Word, (smState s).toNat = smStateNat s.toNat ∧ (smOutput s).toNat = smWordNat s.toNat) ∧
  (∀ (seed : Word) (n i : Nat), (seedwords seed n).length = n ∧
    (i < n → ((seedwords seed n).getD i 0).toNat = seedwordNat seed.toNat i)) ∧
  seedwords 0 1 = [0xE220A8397B1DCDAF]

/-- The `i`-th expansion word needs no run through the words before it: the expansion state grows by the constant (R100). -/
def Obligations.SeedwordsComeFromEvenlySpacedStates : Prop :=
  ∀ (seed : Word) (n i : Nat), i < n → (seedwords seed n)[i]? = some (smOutput (smState (seed + BitVec.ofNat 64 i * smGamma)))

/-- R8: the block's primality test answers for every number what the definition says. -/
def Obligations.PrimalityTestIsExact : Prop := ∀ n : Nat, isPrime n = true ↔ PrimeByDivisors n

/-- R101: the four conditions in their order, for both commands that check them, in every state. -/
def Obligations.DxInitChecksItsParametersInOrder : Prop :=
  ∀ (s : State) (bb pp kk ss seed : Word),
    DxCheckAnswers s bb pp kk ss 0x01 (exec (.dxInitSeed bb pp kk ss seed) s) ∧
    DxCheckAnswers s bb pp kk ss 0x02 (exec (.dxInitEnt bb pp kk ss) s)

/-- R102, R104, R105, R106: `DX.INIT.SEED` with legal parameters. -/
def Obligations.DxInitSeedFillsTheUnit : Prop :=
  ∀ (s : State) (bb pp kk ss seed : Word), DxParametersLegal s bb pp kk ss →
    ∃ t, exec (.dxInitSeed bb pp kk ss seed) s = .next t ∧
      DxHolds t.dx bb.toNat pp.toNat kk.toNat ss.toNat (seedwordNat seed.toNat) ∧
      Responds s t 0 0 0x01 [] ∧ t = { s with dx := t.dx, respOut := t.respOut }

/-- R103 to R106: `DX.INIT.ENT` with legal parameters and its `kk` words, for every draw. -/
def Obligations.DxInitEntFillsTheUnit : Prop :=
  ∀ (s : State) (bb pp kk ss : Word), DxParametersLegal s bb pp kk ss → kk.toNat ≤ s.entropyIn.length →
    ∃ t, exec (.dxInitEnt bb pp kk ss) s = .next t ∧
      DxHolds t.dx bb.toNat pp.toNat kk.toNat ss.toNat (fun i => (s.entropyIn.getD i 0).toNat) ∧
      Responds s t 0 0 0x02 [] ∧
      t = { s with dx := t.dx, respOut := t.respOut, entropyIn := s.entropyIn.drop kk.toNat }

/-- R227: an `*.INIT.ENT` whose check passes and whose words have not all come keeps those that have, sends nothing and
writes no register. -/
def Obligations.StarvedInitWaits : Prop :=
  ∀ s : State,
    (∀ bb pp kk ss, DxParametersLegal s bb pp kk ss → s.entropyIn.length < kk.toNat →
      exec (.dxInitEnt bb pp kk ss) s =
        .next { s with wait := some ⟨.dxInit bb pp kk ss, s.entropyIn⟩, entropyIn := [] }) ∧
    (∀ bb1 bb2 : Word, bb1 ≠ 0 → bb2 ≠ 0 → s.entropyIn.length < 8 →
      exec (.cmInitEnt bb1 bb2) s = .next { s with wait := some ⟨.cmInit bb1 bb2, s.entropyIn⟩, entropyIn := [] })

/-- R227: while the words do not suffice a waiting command takes no command word, sends nothing and writes no register, and
with no new word at all the block does not move: it is stuck until reset. -/
def Obligations.WaitingBlockIsStuckUntilWordsCome : Prop :=
  ∀ (s : State) (w : EntropyWait), s.Inv → s.rst = false → s.wait = some w →
    w.drawn.length + s.entropyIn.length < w.cmd.needs →
    Machine.step s = .next { s with wait := some ⟨w.cmd, w.drawn ++ s.entropyIn⟩, entropyIn := [] } ∧
    (s.entropyIn = [] → Machine.step s = .next s) ∧
    Machine.step { s with rst := true } = .next { State.resetWith s.kkMax s.respCap with rst := true }

/-- R227: a command that had to wait ends as it would have ended had all its words been there. -/
def Obligations.LateEntropyGivesTheSameResult : Prop :=
  ∀ (i : Instr) (s t : State) (ws : List Word), s.rst = false → s.wait = none → exec i s = .next t → t.wait ≠ none →
    Machine.step { t with entropyIn := ws } = exec i { s with entropyIn := s.entropyIn ++ ws }

/-- R107 and R114: `DX.NEXT.RAW` on a configured unit, and what R107 remarks on its two slots. -/
def Obligations.DxNextRawMakesTheStep : Prop :=
  ∀ s : State, s.dx.v = true → s.dx.Live s.kkMax.toNat →
    (∃ t, exec .dxNextRaw s = .next t ∧ DxStepped s t ∧ dxValueNat s.dx < s.dx.pp.toNat ∧
      Responds s t 0 0 0x03 [dxValueNat s.dx]) ∧
    laggedNat s.dx ≠ oldestNat s.dx ∧ (s.dx.ss.toNat = 1 → laggedNat s.dx = s.dx.cur.toNat) ∧
    (s.dx.bb.toNat = 0 → dxValueNat s.dx = (s.dx.slots.read (oldestNat s.dx)).toNat)

/-- R107, R108 and R116: `DX.NEXT.UNIT` makes the step of `DX.NEXT.RAW` and answers the mapped value. -/
def Obligations.DxNextUnitMakesTheSameStep : Prop :=
  ∀ s : State, s.dx.v = true → s.dx.Live s.kkMax.toNat →
    ∃ t u, exec .dxNextUnit s = .next t ∧ exec .dxNextRaw s = .next u ∧ t.dx = u.dx ∧ DxStepped s t ∧
      Responds s t 0 0 0x04 [(f64Ratio (dxValueNat s.dx) s.dx.pp.toNat).toNat]

/-- R200 and R205: the commands that need a configured unit, without it. -/
def Obligations.UnconfiguredUnitsAnswerNotConfigured : Prop :=
  ∀ s : State,
    (s.dx.v = false → Fails s (exec .dxNextRaw s) 3 0 0x03 ∧ Fails s (exec .dxNextUnit s) 3 0 0x04 ∧
      ∀ i, Fails s (exec (.rdSlot i) s) 3 0 0x22) ∧
    (s.cm.v = false → Fails s (exec .cmNextRaw s) 3 0 0x13 ∧ Fails s (exec .cmNextUnit s) 3 0 0x14)

/-- R27 and R107: in the logical view the step moves the window on by one place and puts the new value last. -/
def Obligations.DxStepShiftsTheLogicalWindow : Prop :=
  ∀ s t : State, s.dx.v = true → s.dx.Live s.kkMax.toNat → exec .dxNextRaw s = .next t →
    t.dx.logical 1 =
      (s.dx.bb.toNat * s.dx.logical s.dx.ss.toNat + s.dx.logical s.dx.kk.toNat) % s.dx.pp.toNat ∧
    ∀ j, 1 ≤ j → j < s.dx.kk.toNat → t.dx.logical (j + 1) = s.dx.logical j

/-- R27, R107, R114: the outputs of a run of `DX.NEXT.RAW` commands are, one after another and for any number of them, the
terms of the sequence that continues the seeded window by the recurrence, and the window holds its last `kk` terms. -/
def Obligations.DxOutputsFollowTheRecurrence : Prop :=
  ∀ (s : State) (x : Nat → Nat), s.dx.v = true → s.dx.Live s.kkMax.toNat →
    (∀ j, 1 ≤ j → j ≤ s.dx.kk.toNat → x (s.dx.kk.toNat - j) = s.dx.logical j) →
    (∀ n, s.dx.kk.toNat ≤ n →
      x n = (s.dx.bb.toNat * x (n - s.dx.ss.toNat) + x (n - s.dx.kk.toNat)) % s.dx.pp.toNat) →
    ∀ m : Nat, ∃ t, execTimes .dxNextRaw m s = some t ∧
      (∀ j, 1 ≤ j → j ≤ s.dx.kk.toNat → t.dx.logical j = x (s.dx.kk.toNat + m - j)) ∧
      ∃ ws : List Word, t.respOut = s.respOut ++ ws ∧
        ws.map BitVec.toNat =
          (List.range m).flatMap fun q => [statusNat 0 0 0x03 true s.cm.v 1, x (s.dx.kk.toNat + q)]

/-- R118: `DX.CLR`, in every state. -/
def Obligations.DxClrZeroesTheUnit : Prop :=
  ∀ s : State, ∃ t, exec .dxClr s = .next t ∧ t.dx.v = false ∧ t.dx.bb = 0 ∧ t.dx.pp = 0 ∧ t.dx.kk = 0 ∧ t.dx.ss = 0 ∧
    t.dx.cur = 0 ∧ (∀ i, t.dx.slots.read i = 0) ∧ Responds s t 0 0 0x05 [] ∧
    t = { s with dx := t.dx, respOut := t.respOut }

/-- R108: the pattern is that of the binary64 number nearest to `n / d`, positive, normal and below 1: it has the exponent of
`n / d` and differs from it by less than half a unit of its last place (with `d < 2^31` no tie can arise). With biased exponent
`e` and fraction `f` the number is `(2^52 + f) * 2^(e - 1075)`. -/
def Obligations.DxUnitMappingRoundsToNearest : Prop :=
  (∀ d : Nat, f64Ratio 0 d = 0) ∧
  ∀ n d : Nat, 0 < n → n < d → d ≤ 2 ^ 31 - 1 →
    ∃ e f : Nat, (f64Ratio n d).toNat = e * 2 ^ 52 + f ∧ f < 2 ^ 52 ∧ 992 ≤ e ∧ e ≤ 1022 ∧
      d ≤ n * 2 ^ (1023 - e) ∧ n * 2 ^ (1023 - e) < 2 * d ∧
      2 * ((2 ^ 52 + f) * d) < 2 * (n * 2 ^ (1075 - e)) + d ∧ 2 * (n * 2 ^ (1075 - e)) < 2 * ((2 ^ 52 + f) * d) + d

/-- R109: for a fixed `d` the mapping never decreases (patterns of non-negative numbers order as the numbers do), and every
DX unit output lies in [0, 1). -/
def Obligations.DxUnitOutputsAreMonotoneAndBelowOne : Prop :=
  (∀ n m d : Nat, n ≤ m → m < d → d ≤ 2 ^ 31 - 1 → (f64Ratio n d).toNat ≤ (f64Ratio m d).toNat) ∧
  ∀ s : State, s.dx.v = true → s.dx.Live s.kkMax.toNat →
    ∃ t u, exec .dxNextUnit s = .next t ∧ Responds s t 0 0 0x04 [u] ∧ u < 0x3FF0000000000000

/-- R155: the pattern is exactly that of `(out >> 11) * 2^-53`: zero below `2^11`, else with biased exponent `e` and fraction
`f` the number `(2^52 + f) * 2^(e - 1075)`; the largest pattern is that of `1 - 2^-53`. -/
def Obligations.CmUnitMappingIsExact : Prop :=
  ∀ out : Word,
    (out.toNat < 2 ^ 11 → f64Top53 out = 0) ∧
    (2 ^ 11 ≤ out.toNat → ∃ e f : Nat, (f64Top53 out).toNat = e * 2 ^ 52 + f ∧ f < 2 ^ 52 ∧ 970 ≤ e ∧ e ≤ 1022 ∧
      2 ^ 52 + f = out.toNat / 2 ^ 11 * 2 ^ (1022 - e)) ∧
    (f64Top53 out).toNat ≤ 0x3FEFFFFFFFFFFFFF ∧ (out.toNat = 2 ^ 64 - 1 → f64Top53 out = 0x3FEFFFFFFFFFFFFF)

/-- R140: the two conditions in their order, for both commands that check them, in every state. -/
def Obligations.CmInitChecksItsMultipliersInOrder : Prop :=
  ∀ (s : State) (bb1 bb2 seed : Word),
    (bb1 = 0 → Fails s (exec (.cmInitSeed bb1 bb2 seed) s) 2 0 0x11 ∧ Fails s (exec (.cmInitEnt bb1 bb2) s) 2 0 0x12) ∧
    (bb1 ≠ 0 → bb2 = 0 →
      Fails s (exec (.cmInitSeed bb1 bb2 seed) s) 2 1 0x11 ∧ Fails s (exec (.cmInitEnt bb1 bb2) s) 2 1 0x12)

/-- R141, R144, R146, R148: `CM.INIT.SEED` with non-zero multipliers. -/
def Obligations.CmInitSeedFillsTheUnit : Prop :=
  ∀ (s : State) (bb1 bb2 seed : Word), bb1 ≠ 0 → bb2 ≠ 0 →
    ∃ t, exec (.cmInitSeed bb1 bb2 seed) s = .next t ∧
      CmHolds t.cm bb1.toNat bb2.toNat (seedwordNat seed.toNat) ∧
      Responds s t 0 0 0x11 [] ∧ t = { s with cm := t.cm, respOut := t.respOut }

/-- R142, R144, R146, R148: `CM.INIT.ENT` with non-zero multipliers and its eight words, for every draw. -/
def Obligations.CmInitEntFillsTheUnit : Prop :=
  ∀ (s : State) (bb1 bb2 : Word), bb1 ≠ 0 → bb2 ≠ 0 → 8 ≤ s.entropyIn.length →
    ∃ t, exec (.cmInitEnt bb1 bb2) s = .next t ∧
      CmHolds t.cm bb1.toNat bb2.toNat (fun i => (s.entropyIn.getD i 0).toNat) ∧
      Responds s t 0 0 0x12 [] ∧ t = { s with cm := t.cm, respOut := t.respOut, entropyIn := s.entropyIn.drop 8 }

/-- R147: from any source words the two lanes start apart, in range, and in no fixed point of their step. -/
def Obligations.LanesNeverStartAlikeOrDegenerate : Prop :=
  ∀ (bb1 bb2 : Word) (ws : List Word), bb1 ≠ 0 → bb2 ≠ 0 →
    let c := cmSeeded bb1 bb2 ws
    (c.x1, c.c1) ≠ (c.x2, c.c2) ∧
    (1 ≤ c.x1.toNat ∧ c.x1.toNat ≤ 2 ^ 64 - 2 ∧ c.c1.toNat < bb1.toNat ∧ ¬LaneFixed bb1 c.x1 c.c1) ∧
    (1 ≤ c.x2.toNat ∧ c.x2.toNat ≤ 2 ^ 64 - 2 ∧ c.c2.toNat < bb2.toNat ∧ ¬LaneFixed bb2 c.x2 c.c2)

/-- R154 and R164: `CM.NEXT.RAW` on a configured unit. -/
def Obligations.CmNextRawMakesTheStep : Prop :=
  ∀ s : State, s.cm.v = true →
    ∃ t, exec .cmNextRaw s = .next t ∧ CmStepped s t ∧ Responds s t 0 0 0x13 [cmOutNat s.cm]

/-- R154, R155 and R166: `CM.NEXT.UNIT` makes the step of `CM.NEXT.RAW` and answers the mapped value. -/
def Obligations.CmNextUnitMakesTheSameStep : Prop :=
  ∀ s : State, s.cm.v = true →
    ∃ t u, exec .cmNextUnit s = .next t ∧ exec .cmNextRaw s = .next u ∧ t.cm = u.cm ∧ CmStepped s t ∧
      Responds s t 0 0 0x14 [(f64Top53 (BitVec.ofNat 64 (cmOutNat s.cm))).toNat]

/-- R168: `CM.CLR`, in every state. -/
def Obligations.CmClrZeroesTheUnit : Prop :=
  ∀ s : State, ∃ t, exec .cmClr s = .next t ∧ t.cm.v = false ∧ t.cm.pcgState = 0 ∧ t.cm.pcgInc = 0 ∧ t.cm.x1 = 0 ∧
    t.cm.c1 = 0 ∧ t.cm.x2 = 0 ∧ t.cm.c2 = 0 ∧ t.cm.bb1 = 0 ∧ t.cm.bb2 = 0 ∧ Responds s t 0 0 0x15 [] ∧
    t = { s with cm := t.cm, respOut := t.respOut }

/-- R32: the lane step is a permutation of the legal lane states: two of them never meet, and a step's result is legal. -/
def Obligations.LaneStepIsAPermutation : Prop :=
  ∀ bb x c y e : Word, c.toNat < bb.toNat → e.toNat < bb.toNat →
    (laneHigh bb x c).toNat < bb.toNat ∧
    (laneLow bb x c = laneLow bb y e → laneHigh bb x c = laneHigh bb y e → x = y ∧ c = e) ∧
    ∃ z g : Word, g.toNat < bb.toNat ∧ laneLow bb z g = x ∧ laneHigh bb z g = c

/-- R181 and R182: `RD.REG` of every selector: the listed ones answer their register or NOT_CONFIGURED, every other one
BAD_SELECTOR. -/
def Obligations.RdRegFollowsTheSelectorMap : Prop :=
  ∀ (s : State) (sel : Index),
    (∀ need value, (sel.toNat, need, value) ∈ selectorMap s → needHolds s need = true →
      ∃ t, exec (.rdReg sel) s = .next t ∧ Responds s t 0 0 0x21 [value] ∧ OnlyResponse s t) ∧
    (∀ need value, (sel.toNat, need, value) ∈ selectorMap s → needHolds s need = false →
      Fails s (exec (.rdReg sel) s) 3 0 0x21) ∧
    ((∀ need value, (sel.toNat, need, value) ∉ selectorMap s) → Fails s (exec (.rdReg sel) s) 4 0 0x21)

/-- R184: `RD.SLOT` of every index, its checks in their order. -/
def Obligations.RdSlotReadsTheLiveSlots : Prop :=
  ∀ (s : State) (i : Index), s.dx.kk.toNat ≤ s.kkMax.toNat →
    (s.dx.v = false → Fails s (exec (.rdSlot i) s) 3 0 0x22) ∧
    (s.dx.v = true → s.dx.kk.toNat ≤ i.toNat → Fails s (exec (.rdSlot i) s) 4 0 0x22) ∧
    (s.dx.v = true → i.toNat < s.dx.kk.toNat →
      ∃ t, exec (.rdSlot i) s = .next t ∧ Responds s t 0 0 0x22 [(s.dx.slots.read i.toNat).toNat] ∧ OnlyResponse s t)

/-- R180: executed any number of times, an inspection command changes no register, slot or flag and gives the same response
every time. -/
def Obligations.ReadsHaveNoSideEffect : Prop :=
  ∀ (i : Instr) (s t : State) (k : Nat), isRead i = true → execTimes i k s = some t →
    OnlyResponse s t ∧ ∀ u, exec i s = .next u →
      ∃ r, u.respOut = s.respOut ++ r ∧ t.respOut = s.respOut ++ (List.replicate k r).flatten

/-- R26, R28, R32, R34, R36: every step keeps the invariant, from every state that meets it. -/
def Obligations.StepKeepsTheInvariant : Prop := ∀ s t : State, s.Inv → Machine.step s = .next t → t.Inv

/-- R36 and R220: the state after reset meets the invariant, in every configuration R6 allows. -/
def Obligations.ResetMeetsTheInvariant : Prop :=
  State.reset.Inv ∧
  ∀ (kkMax : Index) (respCap : Nat), 2 ≤ kkMax.toNat → 2 ≤ respCap → (State.resetWith kkMax respCap).Inv

/-- R58, R219, R227: nothing the host or the entropy source does on the ports breaks the invariant. -/
def Obligations.TheOutsideKeepsTheInvariant : Prop :=
  ∀ s : State, s.Inv →
    (∀ w, (s.sendWord w).Inv) ∧ (∀ w t, s.takeResponse = some (w, t) → t.Inv) ∧ (∀ w, (s.deliverEntropy w).Inv) ∧
    (∀ ws, ({ s with entropyIn := ws } : State).Inv) ∧ s.assertReset.Inv ∧ s.releaseReset.Inv

/-- R203, R204, R206: no state that meets the invariant stops the block; and every state that a host and an entropy source can
bring it to, whatever words they send, meets the invariant. -/
def Obligations.NoReachableStepStops : Prop :=
  (∀ s : State, s.Inv → GoesOn s) ∧ ∀ s : State, Reachable s → s.Inv ∧ GoesOn s

/-- R33: no command of one unit reads or writes the other: two blocks that agree on the unit (and on the words and the
capacity it draws on) go on agreeing on it, whatever the other unit holds, which stays as it was; they answer alike, each with
its own flags, or wait alike; and an inspection command writes no state. -/
def Obligations.UnitsAreIndependent : Prop :=
  (∀ (i : Instr) (s s' t : State), ofDx i = true → s.dx = s'.dx → s.kkMax = s'.kkMax → s.entropyIn = s'.entropyIn →
    exec i s = .next t →
    ∃ t', exec i s' = .next t' ∧ t'.dx = t.dx ∧ t'.entropyIn = t.entropyIn ∧ t.cm = s.cm ∧ t'.cm = s'.cm ∧
      AnswersAlike s t s' t' i.opcode.code.toNat) ∧
  (∀ (i : Instr) (s s' t : State), ofCm i = true → s.cm = s'.cm → s.entropyIn = s'.entropyIn → exec i s = .next t →
    ∃ t', exec i s' = .next t' ∧ t'.cm = t.cm ∧ t'.entropyIn = t.entropyIn ∧ t.dx = s.dx ∧ t'.dx = s'.dx ∧
      AnswersAlike s t s' t' i.opcode.code.toNat) ∧
  ∀ (i : Instr) (s t : State), isRead i = true → exec i s = .next t → OnlyResponse s t

/-- R36 and R220: while `rst` is asserted every step leaves every register, slot and flag 0, no packet begun, no response
queued, no entropy requested, whatever the block was doing; the constants stay. -/
def Obligations.ResetClearsTheBlock : Prop :=
  ∀ s : State, s.rst = true → ∃ t, Machine.step s = .next t ∧
    t.dx.v = false ∧ t.dx.bb = 0 ∧ t.dx.pp = 0 ∧ t.dx.kk = 0 ∧ t.dx.ss = 0 ∧ t.dx.cur = 0 ∧
    (∀ i, t.dx.slots.read i = 0) ∧
    t.cm.v = false ∧ t.cm.pcgState = 0 ∧ t.cm.pcgInc = 0 ∧ t.cm.x1 = 0 ∧ t.cm.c1 = 0 ∧ t.cm.x2 = 0 ∧ t.cm.c2 = 0 ∧
    t.cm.bb1 = 0 ∧ t.cm.bb2 = 0 ∧ t.kkMax = s.kkMax ∧ t.parser = .header ∧ t.respOut = [] ∧ t.wait = none ∧
    t.cmdIn = [] ∧ t.entropyIn = [] ∧ ∀ w, t.deliverEntropy w = t

/-- R221: reset is `DX.CLR` and then `CM.CLR`, with empty channels; after it no `*.NEXT.*` gives an output. -/
def Obligations.ResetIsBothClearsWithEmptyChannels : Prop :=
  ∀ s : State, (∃ t u, exec .dxClr s = .next t ∧ exec .cmClr t = .next u ∧
      ({ u with parser := .header, cmdIn := [], respOut := [], wait := none, entropyIn := [] } : State) = s.applyReset) ∧
    Fails s.applyReset (exec .dxNextRaw s.applyReset) 3 0 0x03 ∧ Fails s.applyReset (exec .dxNextUnit s.applyReset) 3 0 0x04 ∧
    Fails s.applyReset (exec .cmNextRaw s.applyReset) 3 0 0x13 ∧ Fails s.applyReset (exec .cmNextUnit s.applyReset) 3 0 0x14

/-- R229: a block whose response queue is full does not take a packet and does not move, and once the host has taken enough
words it runs that packet as if it had never waited. That the whole packet stays on the channel meanwhile is the model's choice
(log entry 16). -/
def Obligations.FullResponseQueueOnlyDelaysTheCommand : Prop :=
  ∀ (s : State) (p : Packet) (rest : List Word), s.Inv → Idle s → packetOfWords s.cmdIn = some (p, rest) →
    (s.respOut.length = s.respCap → Machine.step s = .next s) ∧
    ∀ left : List Word, left.length + 2 ≤ s.respCap →
      Machine.step { s with respOut := left } = runPacket p { s with cmdIn := rest, respOut := left }

/-- R56, R74, R229: while `rst` is released a step removes no response word and puts none before another, and takes from the
command words either nothing or exactly the next packet. -/
def Obligations.NoWordIsLostOrReordered : Prop :=
  ∀ s t : State, s.Inv → s.rst = false → Machine.step s = .next t →
    (∃ r, t.respOut = s.respOut ++ r) ∧
    (t.pendingWords = s.pendingWords ∨
      ∃ h ws, s.pendingWords = h :: ws ∧ nargNat h ≤ ws.length ∧ t.pendingWords = ws.drop (nargNat h))

/-- R23: the three constants, read in any state; no step, reset included, changes the one that is a field of State. -/
def Obligations.ConstantsReadTheSameForever : Prop :=
  (∀ s : State,
    (∃ t, exec (.rdReg 0x0000) s = .next t ∧ Responds s t 0 0 0x21 [0x4458524500000001] ∧ OnlyResponse s t) ∧
    (∃ t, exec (.rdReg 0x0001) s = .next t ∧ Responds s t 0 0 0x21 [s.kkMax.toNat] ∧ OnlyResponse s t) ∧
    (∃ t, exec (.rdReg 0x0002) s = .next t ∧ Responds s t 0 0 0x21 [2147483647] ∧ OnlyResponse s t)) ∧
  ∀ s t : State, Machine.step s = .next t → t.kkMax = s.kkMax

/-- R53: words carried as bytes, low byte first, decode as the words do. -/
def Obligations.LittleEndianBytesCarryTheWords : Prop :=
  (∀ ws : List Word, wordsOfOctets (octetsOfWords ws) = ws) ∧
  ∀ (w : Word) (j : Nat), j < 8 → ((octetsOfWord w).getD j 0).toNat = w.toNat / 2 ^ (8 * j) % 2 ^ 8

/-- R55 (g): `*.INIT.SEED` with the same operands leaves the same unit, whatever state it is executed in. -/
def Obligations.SeedingDependsOnItsOperandsAlone : Prop :=
  ∀ s s' t t' : State,
    (∀ bb pp kk ss seed, DxParametersLegal s bb pp kk ss → DxParametersLegal s' bb pp kk ss →
      exec (.dxInitSeed bb pp kk ss seed) s = .next t → exec (.dxInitSeed bb pp kk ss seed) s' = .next t' →
      t.dx = t'.dx) ∧
    (∀ bb1 bb2 seed : Word, bb1 ≠ 0 → bb2 ≠ 0 → exec (.cmInitSeed bb1 bb2 seed) s = .next t →
      exec (.cmInitSeed bb1 bb2 seed) s' = .next t' → t.cm = t'.cm)
end

