-- ==== Sys2Proof/Laws/Decode.lean ====
section
/-!
SUPPORT. Header fields as numbers, the opcode table, and what the decoder answers.
-/

namespace Sys2Proof

/-- Concatenation as a number. -/
theorem BitVec.toNat_append_eq {n m : Nat} (x : BitVec n) (y : BitVec m) :
    (x ++ y).toNat = x.toNat * 2 ^ m + y.toNat := by
  rw [BitVec.toNat_append, ← Nat.shiftLeft_add_eq_or_of_lt y.isLt, Nat.shiftLeft_eq]

theorem Header.make_toNat (op narg : BitVec 8) (imm : Index) (rsv : BitVec 32) :
    (Header.make op narg imm rsv).toNat = rsv.toNat * 2 ^ 32 + imm.toNat * 2 ^ 16 + narg.toNat * 2 ^ 8 + op.toNat := by
  show (rsv ++ imm ++ narg ++ op : BitVec (32 + 16 + 8 + 8)).toNat = _
  simp only [Sys2Proof.BitVec.toNat_append_eq]
  omega

theorem Header.op_toNat (h : Word) : (Header.op h).toNat = h.toNat % 2 ^ 8 := by
  simp [Header.op, BitVec.extractLsb'_toNat]

theorem Header.narg_toNat (h : Word) : (Header.narg h).toNat = h.toNat / 2 ^ 8 % 2 ^ 8 := by
  simp [Header.narg, BitVec.extractLsb'_toNat, Nat.shiftRight_eq_div_pow]

theorem Header.imm_toNat (h : Word) : (Header.imm h).toNat = h.toNat / 2 ^ 16 % 2 ^ 16 := by
  simp [Header.imm, BitVec.extractLsb'_toNat, Nat.shiftRight_eq_div_pow]

theorem Header.rsv_toNat (h : Word) : (Header.rsv h).toNat = h.toNat / 2 ^ 32 := by
  have := h.isLt
  simp only [Header.rsv, BitVec.extractLsb'_toNat, Nat.shiftRight_eq_div_pow]
  omega

@[simp] theorem Header.op_make (op narg : BitVec 8) (imm : Index) (rsv : BitVec 32) :
    Header.op (Header.make op narg imm rsv) = op := by
  apply BitVec.eq_of_toNat_eq
  rw [Header.op_toNat, Header.make_toNat]
  omega

@[simp] theorem Header.narg_make (op narg : BitVec 8) (imm : Index) (rsv : BitVec 32) :
    Header.narg (Header.make op narg imm rsv) = narg := by
  apply BitVec.eq_of_toNat_eq
  rw [Header.narg_toNat, Header.make_toNat]
  omega

@[simp] theorem Header.imm_make (op narg : BitVec 8) (imm : Index) (rsv : BitVec 32) :
    Header.imm (Header.make op narg imm rsv) = imm := by
  apply BitVec.eq_of_toNat_eq
  rw [Header.imm_toNat, Header.make_toNat]
  omega

@[simp] theorem Header.rsv_make (op narg : BitVec 8) (imm : Index) (rsv : BitVec 32) :
    Header.rsv (Header.make op narg imm rsv) = rsv := by
  apply BitVec.eq_of_toNat_eq
  rw [Header.rsv_toNat, Header.make_toNat]
  omega

/-- A header is made of its four fields. -/
theorem Header.eq_make (h : Word) :
    h = Header.make (Header.op h) (Header.narg h) (Header.imm h) (Header.rsv h) := by
  apply BitVec.eq_of_toNat_eq
  rw [Header.make_toNat, Header.op_toNat, Header.narg_toNat, Header.imm_toNat, Header.rsv_toNat]
  omega

@[simp] theorem Opcode.ofCode_code (o : Opcode) : Opcode.ofCode o.code = some o := by cases o <;> decide

theorem Opcode.mem_all (o : Opcode) : o ∈ Opcode.all := by cases o <;> decide

theorem Opcode.code_of_ofCode {b : BitVec 8} {o : Opcode} (h : Opcode.ofCode b = some o) : o.code = b := by
  simpa using List.find?_some h

theorem Opcode.ofCode_eq_none {b : BitVec 8} : Opcode.ofCode b = none ↔ ∀ o : Opcode, o.code ≠ b := by
  unfold Opcode.ofCode
  rw [List.find?_eq_none]
  simp only [beq_iff_eq]
  exact ⟨fun h o => h o (Opcode.mem_all o), fun h o _ => h o⟩

/-- The decoder's table and the table of `WellFormed.lean` give a listed opcode the same shape. -/
theorem Opcode.shape_code (o : Opcode) : opcodeShape o.code.toNat = some (o.narg.toNat, o.usesImm) := by cases o <;> rfl

theorem noOperands_eq_some {f : Instr} {i : Instr} {a : List Word} (h : noOperands f a = some i) : a = [] ∧ i = f := by
  cases a with
  | nil => exact ⟨rfl, (Option.some.inj h).symm⟩
  | cons => exact absurd h (by simp [noOperands])

theorem twoOperands_eq_some {f : Word → Word → Instr} {i : Instr} {a : List Word} (h : twoOperands f a = some i) :
    ∃ a0 a1, a = [a0, a1] ∧ i = f a0 a1 := by
  unfold twoOperands at h
  split at h
  · exact ⟨_, _, rfl, (Option.some.inj h).symm⟩
  · cases h

theorem threeOperands_eq_some {f : Word → Word → Word → Instr} {i : Instr} {a : List Word}
    (h : threeOperands f a = some i) : ∃ a0 a1 a2, a = [a0, a1, a2] ∧ i = f a0 a1 a2 := by
  unfold threeOperands at h
  split at h
  · exact ⟨_, _, _, rfl, (Option.some.inj h).symm⟩
  · cases h

theorem fourOperands_eq_some {f : Word → Word → Word → Word → Instr} {i : Instr} {a : List Word}
    (h : fourOperands f a = some i) : ∃ a0 a1 a2 a3, a = [a0, a1, a2, a3] ∧ i = f a0 a1 a2 a3 := by
  unfold fourOperands at h
  split at h
  · exact ⟨_, _, _, _, rfl, (Option.some.inj h).symm⟩
  · cases h

theorem fiveOperands_eq_some {f : Word → Word → Word → Word → Word → Instr} {i : Instr} {a : List Word}
    (h : fiveOperands f a = some i) : ∃ a0 a1 a2 a3 a4, a = [a0, a1, a2, a3, a4] ∧ i = f a0 a1 a2 a3 a4 := by
  unfold fiveOperands at h
  split at h
  · exact ⟨_, _, _, _, _, rfl, (Option.some.inj h).symm⟩
  · cases h

/-- The command built has its opcode, its operand words, and its immediate where it uses one. -/
theorem Opcode.of_build_eq_some {o : Opcode} {a : List Word} {imm : Index} {i : Instr} (h : o.build a imm = some i) :
    i.opcode = o ∧ i.operands = a ∧ i.imm = if o.usesImm then imm else 0 := by
  cases o
  case dxInitSeed => obtain ⟨_, _, _, _, _, rfl, rfl⟩ := fiveOperands_eq_some h; exact ⟨rfl, rfl, rfl⟩
  case dxInitEnt => obtain ⟨_, _, _, _, rfl, rfl⟩ := fourOperands_eq_some h; exact ⟨rfl, rfl, rfl⟩
  case cmInitSeed => obtain ⟨_, _, _, rfl, rfl⟩ := threeOperands_eq_some h; exact ⟨rfl, rfl, rfl⟩
  case cmInitEnt => obtain ⟨_, _, rfl, rfl⟩ := twoOperands_eq_some h; exact ⟨rfl, rfl, rfl⟩
  all_goals obtain ⟨rfl, rfl⟩ := noOperands_eq_some h; exact ⟨rfl, rfl, rfl⟩

/-- A command's operand words build it again. -/
@[simp] theorem Instr.build_operands (i : Instr) : i.opcode.build i.operands i.imm = some i := by cases i <;> rfl

theorem Instr.operands_length (i : Instr) : i.operands.length = i.opcode.narg.toNat := by cases i <;> rfl

/-- With as many words as R72 lists, an opcode builds a command. -/
theorem Opcode.exists_build {o : Opcode} {a : List Word} {imm : Index} (h : a.length = o.narg.toNat) :
    ∃ i, o.build a imm = some i := by
  rcases a with _ | ⟨x1, _ | ⟨x2, _ | ⟨x3, _ | ⟨x4, _ | ⟨x5, _ | ⟨x6, a⟩⟩⟩⟩⟩⟩ <;> cases o <;>
    first | exact ⟨_, rfl⟩ | exact absurd h (by simp [Opcode.narg])

/-- When the decoder accepts (R75). -/
theorem decode_eq_ok {p : Packet} {i : Instr} :
    decode p = .ok i ↔ ∃ o, Opcode.ofCode (Header.op p.header) = some o ∧ Header.narg p.header = o.narg ∧
      (o.usesImm = false → Header.imm p.header = 0) ∧ Header.rsv p.header = 0 ∧
      o.build p.operands (Header.imm p.header) = some i := by
  unfold decode
  cases Opcode.ofCode (Header.op p.header) with
  | none => simp
  | some o =>
    simp only [Option.some.injEq, exists_eq_left']
    split
    · simp_all
    · split
      · simp_all
      · split
        · simp_all
        · split <;> simp_all

/-- A packet that decodes carries the opcode byte of its command. -/
theorem op_of_decode {p : Packet} {i : Instr} (h : decode p = .ok i) : Header.op p.header = i.opcode.code := by
  obtain ⟨o, h1, -, -, -, h5⟩ := decode_eq_ok.1 h
  rw [(Opcode.of_build_eq_some h5).1, Opcode.code_of_ofCode h1]

theorem DecodeError.detail_le (e : DecodeError) : e.detail.toNat ≤ 4 := by cases e <;> decide

end Sys2Proof
end

