-- ==== Sys2Proof/Laws/Ops.lean ====
section
/-!
SUPPORT. What each shared operation can do, said once: the status word, the slot accesses, the parameter checks, the entropy
draw, and `exec` itself.
-/

namespace Sys2Proof.Machine

/-- The status word as the sum of its fields (R77). -/
theorem statusWord_toNat (ecode edetail opecho : BitVec 8) (dxv cmv : Bool) {ndata : Nat} (h : ndata < 2 ^ 32) :
    (statusWord ecode edetail opecho dxv cmv ndata).toNat =
      ndata * 2 ^ 32 + cmv.toNat * 2 ^ 25 + dxv.toNat * 2 ^ 24 + opecho.toNat * 2 ^ 16 + edetail.toNat * 2 ^ 8 +
        ecode.toNat := by
  show (BitVec.ofNat 32 ndata ++ (0 : BitVec 6) ++ BitVec.ofBool cmv ++ BitVec.ofBool dxv ++ opecho ++ edetail ++ ecode :
    BitVec (32 + 6 + 1 + 1 + 8 + 8 + 8)).toNat = _
  simp only [Sys2Proof.BitVec.toNat_append_eq, BitVec.toNat_ofBool, BitVec.toNat_ofNat, BitVec.ofNat_eq_ofNat,
    Nat.zero_mod]
  omega

theorem State.readSlot_eq_some {s : State} {i : Nat} {v : Slot} :
    s.readSlot i = some v ↔ i < s.kkMax.toNat ∧ s.dx.slots.read i = v := by
  unfold State.readSlot
  split <;> simp_all

/-- Inside the slot space every slot can be read. -/
theorem State.readSlot_of_lt {s : State} {i : Nat} (h : i < s.kkMax.toNat) : s.readSlot i = some (s.dx.slots.read i) :=
  State.readSlot_eq_some.2 ⟨h, rfl⟩

/-- When the DX check passes (R101). -/
theorem dxCheck_eq_none {kkMax bb pp kk ss : Nat} :
    dxCheck kkMax bb pp kk ss = none ↔
      (0 < ss ∧ ss < kk) ∧ (pp ≤ ppMax ∧ isPrime pp = true) ∧ (1 ≤ kk ∧ kk ≤ kkMax) ∧ bb < pp := by
  unfold dxCheck
  split
  · simp_all
  · split
    · simp_all
    · split
      · simp_all
      · split <;> simp_all

/-- When the CM check passes (R140). -/
theorem cmCheck_eq_none {bb1 bb2 : Nat} : cmCheck bb1 bb2 = none ↔ bb1 ≠ 0 ∧ bb2 ≠ 0 := by
  unfold cmCheck
  split
  · simp_all
  · split <;> simp_all

/-- The failing operand's index is at most 3 (R201). -/
theorem dxCheck_detail_le {kkMax bb pp kk ss : Nat} {d : BitVec 8} (h : dxCheck kkMax bb pp kk ss = some d) :
    d.toNat ≤ 3 := by
  unfold dxCheck at h
  (repeat' split at h) <;> cases h <;> decide

theorem cmCheck_detail_le {bb1 bb2 : Nat} {d : BitVec 8} (h : cmCheck bb1 bb2 = some d) : d.toNat ≤ 3 := by
  unfold cmCheck at h
  (repeat' split at h) <;> cases h <;> decide

theorem isPrime_two_le {n : Nat} (h : isPrime n = true) : 2 ≤ n := by
  unfold isPrime at h
  simp only [Bool.and_eq_true, decide_eq_true_eq] at h
  exact h.1

theorem State.drawEntropy_of_le {s : State} {n : Nat} (h : n ≤ s.entropyIn.length) :
    s.drawEntropy n = some (s.entropyIn.take n, { s with entropyIn := s.entropyIn.drop n }) := if_pos h

theorem State.drawEntropy_of_lt {s : State} {n : Nat} (h : s.entropyIn.length < n) : s.drawEntropy n = none :=
  if_neg (by omega)

theorem seedwords_length (seed : Word) (n : Nat) : (seedwords seed n).length = n := by
  induction n generalizing seed with
  | zero => rfl
  | succ n ih => simp [seedwords, ih]

/-- The state after a command that wrote the DX unit and responded, as one record. Rewrite with it: it is not stated by `rfl`,
so that the kernel never compares the units themselves. -/
theorem State.respond_setDx (s : State) (d : DxUnit) (op : BitVec 8) (data : List Word) :
    (s.setDx d).respond op data =
      { s with dx := d, respOut := s.respOut ++ (statusWord 0 0 op d.v s.cm.v data.length :: data) } := by
  cases s
  rfl

/-- The same for the CM unit. -/
theorem State.respond_setCm (s : State) (c : CmUnit) (op : BitVec 8) (data : List Word) :
    (s.setCm c).respond op data =
      { s with cm := c, respOut := s.respOut ++ (statusWord 0 0 op s.dx.v c.v data.length :: data) } := by
  cases s
  rfl

/-- The DX step with both its slots in the slot space (R107). -/
theorem dxStep_of_lt {s : State} (hl : dxLagged s.dx < s.kkMax.toNat) (ho : dxOldest s.dx < s.kkMax.toNat) :
    dxStep s =
      let v := (s.dx.bb.toNat * (s.dx.slots.read (dxLagged s.dx)).toNat + (s.dx.slots.read (dxOldest s.dx)).toNat) %
        s.dx.pp.toNat
      some (v, s.setDx { s.dx with
        slots := s.dx.slots.write (dxOldest s.dx) (BitVec.ofNat 31 v)
        cur := BitVec.ofNat 16 (dxOldest s.dx) }) := by
  unfold dxStep
  rw [State.readSlot_of_lt hl, State.readSlot_of_lt ho]

/-- Whatever the DX step answers, it writes the DX unit only, and in it one slot and the cursor. -/
theorem dxStep_eq_some {s s' : State} {v : Nat} (h : dxStep s = some (v, s')) :
    dxLagged s.dx < s.kkMax.toNat ∧ dxOldest s.dx < s.kkMax.toNat ∧
    v = (s.dx.bb.toNat * (s.dx.slots.read (dxLagged s.dx)).toNat + (s.dx.slots.read (dxOldest s.dx)).toNat) %
      s.dx.pp.toNat ∧
    s' = s.setDx { s.dx with
      slots := s.dx.slots.write (dxOldest s.dx) (BitVec.ofNat 31 v)
      cur := BitVec.ofNat 16 (dxOldest s.dx) } := by
  unfold dxStep at h
  split at h
  · next xl xo hl ho =>
    obtain ⟨hl', rfl⟩ := State.readSlot_eq_some.1 hl
    obtain ⟨ho', rfl⟩ := State.readSlot_eq_some.1 ho
    cases h
    exact ⟨hl', ho', rfl, rfl⟩
  · cases h

/-- How a command can end: with an error, with a wait for entropy, or with a response, its unit and the words it drew being
all that changed besides. -/
inductive Ended (i : Instr) (s : State) : State → Prop where
  | error (e : ErrorCode) (detail : BitVec 8) (h : detail.toNat ≤ 3) : Ended i s (s.raise i.opcode.code e detail)
  | waits (c : EntropyCmd) (hc : c.instr = i) (n : Nat) (h : s.entropyIn.length < n) : Ended i s (s.awaitEntropy c)
  | answer (d : DxUnit) (c : CmUnit) (n : Nat) (data : List Word) (h : data.length = i.opcode.ndata) :
      Ended i s (State.respond { s with dx := d, cm := c, entropyIn := s.entropyIn.drop n } i.opcode.code data)

/-- Every command that gives a next state ended in one of the three ways. -/
theorem ended_of_exec {i : Instr} {s t : State} (h : exec i s = .next t) : Ended i s t := by
  cases i with
  | dxInitSeed bb pp kk ss seed =>
    simp only [exec, execDxInitSeed] at h
    split at h
    · next d hd => cases h; exact .error _ _ (dxCheck_detail_le hd)
    · cases h; exact .answer (dxSeeded bb pp kk ss _) s.cm 0 [] rfl
  | dxInitEnt bb pp kk ss =>
    simp only [exec, execDxInitEnt] at h
    split at h
    · next d hd => cases h; exact .error _ _ (dxCheck_detail_le hd)
    · by_cases hn : kk.toNat ≤ s.entropyIn.length
      · rw [State.drawEntropy_of_le hn] at h
        cases h
        exact .answer (dxSeeded bb pp kk ss _) s.cm kk.toNat [] rfl
      · rw [State.drawEntropy_of_lt (by omega)] at h
        cases h
        exact .waits (.dxInit bb pp kk ss) rfl kk.toNat (by omega)
  | dxNextRaw =>
    simp only [exec, execDxNextRaw] at h
    split at h
    · cases h; exact .error _ _ (by decide)
    · split at h
      · cases h
      · next v s' hs =>
        cases h
        obtain ⟨-, -, -, rfl⟩ := dxStep_eq_some hs
        exact .answer _ s.cm 0 [BitVec.ofNat 64 v] rfl
  | dxNextUnit =>
    simp only [exec, execDxNextUnit] at h
    split at h
    · cases h; exact .error _ _ (by decide)
    · split at h
      · cases h
      · next v s' hs =>
        cases h
        obtain ⟨-, -, -, rfl⟩ := dxStep_eq_some hs
        exact .answer _ s.cm 0 [f64Ratio v s.dx.pp.toNat] rfl
  | dxClr => cases h; exact .answer DxUnit.cleared s.cm 0 [] rfl
  | cmInitSeed bb1 bb2 seed =>
    simp only [exec, execCmInitSeed] at h
    split at h
    · next d hd => cases h; exact .error _ _ (cmCheck_detail_le hd)
    · cases h; exact .answer s.dx (cmSeeded bb1 bb2 _) 0 [] rfl
  | cmInitEnt bb1 bb2 =>
    simp only [exec, execCmInitEnt] at h
    split at h
    · next d hd => cases h; exact .error _ _ (cmCheck_detail_le hd)
    · by_cases hn : 8 ≤ s.entropyIn.length
      · rw [State.drawEntropy_of_le hn] at h
        cases h
        exact .answer s.dx (cmSeeded bb1 bb2 _) 8 [] rfl
      · rw [State.drawEntropy_of_lt (by omega)] at h
        cases h
        exact .waits (.cmInit bb1 bb2) rfl 8 (by omega)
  | cmNextRaw =>
    simp only [exec, execCmNextRaw] at h
    split at h
    · cases h; exact .error _ _ (by decide)
    · cases h; exact .answer s.dx (cmAdvance s.cm) 0 [_] rfl
  | cmNextUnit =>
    simp only [exec, execCmNextUnit] at h
    split at h
    · cases h; exact .error _ _ (by decide)
    · cases h; exact .answer s.dx (cmAdvance s.cm) 0 [_] rfl
  | cmClr => cases h; exact .answer s.dx CmUnit.cleared 0 [] rfl
  | rdReg sel =>
    simp only [exec, execRdReg] at h
    split at h
    · cases h; exact .error _ _ (by decide)
    · split at h
      · cases h; exact .answer s.dx s.cm 0 [_] rfl
      · cases h; exact .error _ _ (by decide)
  | rdSlot idx =>
    simp only [exec, execRdSlot] at h
    split at h
    · cases h; exact .error _ _ (by decide)
    · split at h
      · cases h; exact .error _ _ (by decide)
      · split at h
        · cases h
        · cases h; exact .answer s.dx s.cm 0 [_] rfl

/-- Nothing is refused. -/
theorem exec_ne_refused (i : Instr) (s : State) (r : Refusal) : exec i s ≠ .refused r := by
  cases i <;> simp only [exec, execDxInitSeed, execDxInitEnt, execDxNextRaw, execDxNextUnit, execDxClr, execCmInitSeed,
    execCmInitEnt, execCmNextRaw, execCmNextUnit, execCmClr, execRdReg, execRdSlot] <;>
    (repeat' split) <;> exact nofun

end Sys2Proof.Machine
end

