-- ==== Sys2Proof/Laws/Cm.lean ====
section
/-!
SUPPORT. The shared operations of the CM unit as numbers: the two PCG functions of R143 and R144, and a lane's step.
-/

namespace Sys2Proof.Machine

/-- `pcg_lcg` as a number (R143). -/
theorem pcgLcg_toNat (st inc : Wide) : (pcgLcg st inc).toNat = (st.toNat * pcgMul.toNat + inc.toNat) % 2 ^ 128 := by
  rw [pcgLcg, BitVec.toNat_add, BitVec.toNat_mul, Nat.mod_add_mod]

/-- The increment of `pcg_seed` as a number (R144). -/
theorem pcgSeedInc_toNat (w2 w3 : Word) :
    (pcgSeedInc w2 w3).toNat = (((w2.toNat * 2 ^ 64 + w3.toNat) <<< 1) ||| 1) % 2 ^ 128 := by
  rw [pcgSeedInc, BitVec.toNat_or, BitVec.toNat_shiftLeft, Sys2Proof.BitVec.toNat_append_eq, Nat.or_mod_two_pow]
  rfl

/-- `pcg_out` as a number (R143): the xored halves rotated right by the top six bits. -/
theorem pcgOut_toNat (st : Wide) :
    let v := (st.toNat / 2 ^ 64) ^^^ (st.toNat % 2 ^ 64)
    let r := st.toNat / 2 ^ 122
    (pcgOut st).toNat = ((v >>> r) ||| (v <<< (64 - r))) % 2 ^ 64 := by
  have h := st.isLt
  have e1 : (st.extractLsb' 64 64).toNat = st.toNat / 2 ^ 64 := by
    rw [BitVec.extractLsb'_toNat, Nat.shiftRight_eq_div_pow]
    omega
  have e2 : (st.extractLsb' 0 64).toNat = st.toNat % 2 ^ 64 := by
    rw [BitVec.extractLsb'_toNat, Nat.shiftRight_zero]
  have e3 : (st.extractLsb' 122 6).toNat = st.toNat / 2 ^ 122 := by
    rw [BitVec.extractLsb'_toNat, Nat.shiftRight_eq_div_pow]
    omega
  simp only [pcgOut, rotr64]
  rw [BitVec.toNat_or, BitVec.toNat_ushiftRight, BitVec.toNat_shiftLeft, BitVec.toNat_xor, e1, e2, e3, Nat.or_mod_two_pow]
  have hx : st.toNat / 2 ^ 64 ^^^ st.toNat % 2 ^ 64 < 2 ^ 64 := Nat.xor_lt_two_pow (by omega) (by omega)
  rw [Nat.mod_eq_of_lt (Nat.lt_of_le_of_lt (Nat.shiftRight_le _ _) hx)]

/-- `t` of a lane step fits two words (R151). -/
theorem laneProduct_lt (bb x c : Word) : laneProduct bb x c < 2 ^ 128 := by
  unfold laneProduct
  have h1 := bb.isLt
  have h2 := x.isLt
  have h3 := c.isLt
  have h4 : bb.toNat * x.toNat ≤ (2 ^ 64 - 1) * (2 ^ 64 - 1) := Nat.mul_le_mul (by omega) (by omega)
  omega

theorem laneLow_toNat (bb x c : Word) : (laneLow bb x c).toNat = (bb.toNat * x.toNat + c.toNat) % 2 ^ 64 := by
  rw [laneLow, BitVec.toNat_ofNat, Nat.mod_mod, laneProduct]

theorem laneHigh_toNat (bb x c : Word) : (laneHigh bb x c).toNat = (bb.toNat * x.toNat + c.toNat) / 2 ^ 64 := by
  have h := laneProduct_lt bb x c
  rw [laneHigh, BitVec.toNat_ofNat, Nat.mod_eq_of_lt (by omega), laneProduct]

end Sys2Proof.Machine
end

