-- ==== Sys2Proof/Laws/State.lean ====
section
/-!
SUPPORT. One lemma for each field of State under each named update of `Machine/Ops.lean`, so that no proof unfolds a record
update.
-/

namespace Sys2Proof.Machine

variable (s : State)

@[simp] theorem State.setDx_dx (d : DxUnit) : (s.setDx d).dx = d := rfl
@[simp] theorem State.setDx_cm (d : DxUnit) : (s.setDx d).cm = s.cm := rfl
@[simp] theorem State.setDx_kkMax (d : DxUnit) : (s.setDx d).kkMax = s.kkMax := rfl
@[simp] theorem State.setDx_parser (d : DxUnit) : (s.setDx d).parser = s.parser := rfl
@[simp] theorem State.setDx_cmdIn (d : DxUnit) : (s.setDx d).cmdIn = s.cmdIn := rfl
@[simp] theorem State.setDx_respOut (d : DxUnit) : (s.setDx d).respOut = s.respOut := rfl
@[simp] theorem State.setDx_respCap (d : DxUnit) : (s.setDx d).respCap = s.respCap := rfl
@[simp] theorem State.setDx_wait (d : DxUnit) : (s.setDx d).wait = s.wait := rfl
@[simp] theorem State.setDx_entropyIn (d : DxUnit) : (s.setDx d).entropyIn = s.entropyIn := rfl
@[simp] theorem State.setDx_rst (d : DxUnit) : (s.setDx d).rst = s.rst := rfl

@[simp] theorem State.setCm_dx (c : CmUnit) : (s.setCm c).dx = s.dx := rfl
@[simp] theorem State.setCm_cm (c : CmUnit) : (s.setCm c).cm = c := rfl
@[simp] theorem State.setCm_kkMax (c : CmUnit) : (s.setCm c).kkMax = s.kkMax := rfl
@[simp] theorem State.setCm_parser (c : CmUnit) : (s.setCm c).parser = s.parser := rfl
@[simp] theorem State.setCm_cmdIn (c : CmUnit) : (s.setCm c).cmdIn = s.cmdIn := rfl
@[simp] theorem State.setCm_respOut (c : CmUnit) : (s.setCm c).respOut = s.respOut := rfl
@[simp] theorem State.setCm_respCap (c : CmUnit) : (s.setCm c).respCap = s.respCap := rfl
@[simp] theorem State.setCm_wait (c : CmUnit) : (s.setCm c).wait = s.wait := rfl
@[simp] theorem State.setCm_entropyIn (c : CmUnit) : (s.setCm c).entropyIn = s.entropyIn := rfl
@[simp] theorem State.setCm_rst (c : CmUnit) : (s.setCm c).rst = s.rst := rfl

@[simp] theorem State.pushResponse_dx (ws : List Word) : (s.pushResponse ws).dx = s.dx := rfl
@[simp] theorem State.pushResponse_cm (ws : List Word) : (s.pushResponse ws).cm = s.cm := rfl
@[simp] theorem State.pushResponse_kkMax (ws : List Word) : (s.pushResponse ws).kkMax = s.kkMax := rfl
@[simp] theorem State.pushResponse_parser (ws : List Word) : (s.pushResponse ws).parser = s.parser := rfl
@[simp] theorem State.pushResponse_cmdIn (ws : List Word) : (s.pushResponse ws).cmdIn = s.cmdIn := rfl
@[simp] theorem State.pushResponse_respOut (ws : List Word) : (s.pushResponse ws).respOut = s.respOut ++ ws := rfl
@[simp] theorem State.pushResponse_respCap (ws : List Word) : (s.pushResponse ws).respCap = s.respCap := rfl
@[simp] theorem State.pushResponse_wait (ws : List Word) : (s.pushResponse ws).wait = s.wait := rfl
@[simp] theorem State.pushResponse_entropyIn (ws : List Word) : (s.pushResponse ws).entropyIn = s.entropyIn := rfl
@[simp] theorem State.pushResponse_rst (ws : List Word) : (s.pushResponse ws).rst = s.rst := rfl

@[simp] theorem State.awaitEntropy_dx (c : EntropyCmd) : (s.awaitEntropy c).dx = s.dx := rfl
@[simp] theorem State.awaitEntropy_cm (c : EntropyCmd) : (s.awaitEntropy c).cm = s.cm := rfl
@[simp] theorem State.awaitEntropy_kkMax (c : EntropyCmd) : (s.awaitEntropy c).kkMax = s.kkMax := rfl
@[simp] theorem State.awaitEntropy_parser (c : EntropyCmd) : (s.awaitEntropy c).parser = s.parser := rfl
@[simp] theorem State.awaitEntropy_cmdIn (c : EntropyCmd) : (s.awaitEntropy c).cmdIn = s.cmdIn := rfl
@[simp] theorem State.awaitEntropy_respOut (c : EntropyCmd) : (s.awaitEntropy c).respOut = s.respOut := rfl
@[simp] theorem State.awaitEntropy_respCap (c : EntropyCmd) : (s.awaitEntropy c).respCap = s.respCap := rfl
@[simp] theorem State.awaitEntropy_wait (c : EntropyCmd) : (s.awaitEntropy c).wait = some ⟨c, s.entropyIn⟩ := rfl
@[simp] theorem State.awaitEntropy_entropyIn (c : EntropyCmd) : (s.awaitEntropy c).entropyIn = [] := rfl
@[simp] theorem State.awaitEntropy_rst (c : EntropyCmd) : (s.awaitEntropy c).rst = s.rst := rfl

@[simp] theorem State.resumeWith_dx (w : EntropyWait) : (s.resumeWith w).dx = s.dx := rfl
@[simp] theorem State.resumeWith_cm (w : EntropyWait) : (s.resumeWith w).cm = s.cm := rfl
@[simp] theorem State.resumeWith_kkMax (w : EntropyWait) : (s.resumeWith w).kkMax = s.kkMax := rfl
@[simp] theorem State.resumeWith_parser (w : EntropyWait) : (s.resumeWith w).parser = s.parser := rfl
@[simp] theorem State.resumeWith_cmdIn (w : EntropyWait) : (s.resumeWith w).cmdIn = s.cmdIn := rfl
@[simp] theorem State.resumeWith_respOut (w : EntropyWait) : (s.resumeWith w).respOut = s.respOut := rfl
@[simp] theorem State.resumeWith_respCap (w : EntropyWait) : (s.resumeWith w).respCap = s.respCap := rfl
@[simp] theorem State.resumeWith_wait (w : EntropyWait) : (s.resumeWith w).wait = none := rfl
@[simp] theorem State.resumeWith_entropyIn (w : EntropyWait) : (s.resumeWith w).entropyIn = w.drawn ++ s.entropyIn := rfl
@[simp] theorem State.resumeWith_rst (w : EntropyWait) : (s.resumeWith w).rst = s.rst := rfl

@[simp] theorem State.sendWord_dx (w : Word) : (s.sendWord w).dx = s.dx := rfl
@[simp] theorem State.sendWord_cm (w : Word) : (s.sendWord w).cm = s.cm := rfl
@[simp] theorem State.sendWord_kkMax (w : Word) : (s.sendWord w).kkMax = s.kkMax := rfl
@[simp] theorem State.sendWord_parser (w : Word) : (s.sendWord w).parser = s.parser := rfl
@[simp] theorem State.sendWord_cmdIn (w : Word) : (s.sendWord w).cmdIn = s.cmdIn ++ [w] := rfl
@[simp] theorem State.sendWord_respOut (w : Word) : (s.sendWord w).respOut = s.respOut := rfl
@[simp] theorem State.sendWord_respCap (w : Word) : (s.sendWord w).respCap = s.respCap := rfl
@[simp] theorem State.sendWord_wait (w : Word) : (s.sendWord w).wait = s.wait := rfl
@[simp] theorem State.sendWord_entropyIn (w : Word) : (s.sendWord w).entropyIn = s.entropyIn := rfl
@[simp] theorem State.sendWord_rst (w : Word) : (s.sendWord w).rst = s.rst := rfl

@[simp] theorem State.applyReset_dx : (s.applyReset).dx = DxUnit.cleared := rfl
@[simp] theorem State.applyReset_cm : (s.applyReset).cm = CmUnit.cleared := rfl
@[simp] theorem State.applyReset_kkMax : (s.applyReset).kkMax = s.kkMax := rfl
@[simp] theorem State.applyReset_parser : (s.applyReset).parser = .header := rfl
@[simp] theorem State.applyReset_cmdIn : (s.applyReset).cmdIn = [] := rfl
@[simp] theorem State.applyReset_respOut : (s.applyReset).respOut = [] := rfl
@[simp] theorem State.applyReset_respCap : (s.applyReset).respCap = s.respCap := rfl
@[simp] theorem State.applyReset_wait : (s.applyReset).wait = none := rfl
@[simp] theorem State.applyReset_entropyIn : (s.applyReset).entropyIn = [] := rfl
@[simp] theorem State.applyReset_rst : (s.applyReset).rst = s.rst := rfl

@[simp] theorem State.respond_dx (op : BitVec 8) (data : List Word) : (s.respond op data).dx = s.dx := rfl
@[simp] theorem State.respond_cm (op : BitVec 8) (data : List Word) : (s.respond op data).cm = s.cm := rfl
@[simp] theorem State.respond_kkMax (op : BitVec 8) (data : List Word) : (s.respond op data).kkMax = s.kkMax := rfl
@[simp] theorem State.respond_parser (op : BitVec 8) (data : List Word) : (s.respond op data).parser = s.parser := rfl
@[simp] theorem State.respond_cmdIn (op : BitVec 8) (data : List Word) : (s.respond op data).cmdIn = s.cmdIn := rfl
@[simp] theorem State.respond_respOut (op : BitVec 8) (data : List Word) : (s.respond op data).respOut = s.respOut ++ (statusWord 0 0 op s.dx.v s.cm.v data.length :: data) := rfl
@[simp] theorem State.respond_respCap (op : BitVec 8) (data : List Word) : (s.respond op data).respCap = s.respCap := rfl
@[simp] theorem State.respond_wait (op : BitVec 8) (data : List Word) : (s.respond op data).wait = s.wait := rfl
@[simp] theorem State.respond_entropyIn (op : BitVec 8) (data : List Word) : (s.respond op data).entropyIn = s.entropyIn := rfl
@[simp] theorem State.respond_rst (op : BitVec 8) (data : List Word) : (s.respond op data).rst = s.rst := rfl

@[simp] theorem State.raise_dx (op : BitVec 8) (e : ErrorCode) (detail : BitVec 8) : (s.raise op e detail).dx = s.dx := rfl
@[simp] theorem State.raise_cm (op : BitVec 8) (e : ErrorCode) (detail : BitVec 8) : (s.raise op e detail).cm = s.cm := rfl
@[simp] theorem State.raise_kkMax (op : BitVec 8) (e : ErrorCode) (detail : BitVec 8) : (s.raise op e detail).kkMax = s.kkMax := rfl
@[simp] theorem State.raise_parser (op : BitVec 8) (e : ErrorCode) (detail : BitVec 8) : (s.raise op e detail).parser = s.parser := rfl
@[simp] theorem State.raise_cmdIn (op : BitVec 8) (e : ErrorCode) (detail : BitVec 8) : (s.raise op e detail).cmdIn = s.cmdIn := rfl
@[simp] theorem State.raise_respOut (op : BitVec 8) (e : ErrorCode) (detail : BitVec 8) : (s.raise op e detail).respOut = s.respOut ++ [statusWord e.code detail op s.dx.v s.cm.v 0] := rfl
@[simp] theorem State.raise_respCap (op : BitVec 8) (e : ErrorCode) (detail : BitVec 8) : (s.raise op e detail).respCap = s.respCap := rfl
@[simp] theorem State.raise_wait (op : BitVec 8) (e : ErrorCode) (detail : BitVec 8) : (s.raise op e detail).wait = s.wait := rfl
@[simp] theorem State.raise_entropyIn (op : BitVec 8) (e : ErrorCode) (detail : BitVec 8) : (s.raise op e detail).entropyIn = s.entropyIn := rfl
@[simp] theorem State.raise_rst (op : BitVec 8) (e : ErrorCode) (detail : BitVec 8) : (s.raise op e detail).rst = s.rst := rfl

end Sys2Proof.Machine
end

