-- ==== Sys2Proof/Laws/Control.lean ====
section
/-!
SUPPORT. What stands around a command: what a command leaves alone, what the parser does with the words there are, and which
of the three ways a step takes.
-/

namespace Sys2Proof.Machine

/-- No command touches the parser, the command channel, the parameters or the pin, and none queues more than two words. -/
theorem Ended.frame {i : Instr} {s t : State} (h : Ended i s t) :
    t.parser = s.parser ∧ t.cmdIn = s.cmdIn ∧ t.kkMax = s.kkMax ∧ t.respCap = s.respCap ∧ t.rst = s.rst ∧
      ∃ r : List Word, t.respOut = s.respOut ++ r ∧ r.length ≤ 2 := by
  cases h with
  | error e detail h => exact ⟨rfl, rfl, rfl, rfl, rfl, _, rfl, by simp⟩
  | waits c hc n h => exact ⟨rfl, rfl, rfl, rfl, rfl, [], by simp, by simp⟩
  | answer d c n data h =>
    have hn : i.opcode.ndata ≤ 1 := by cases i.opcode <;> decide
    exact ⟨rfl, rfl, rfl, rfl, rfl, _, rfl, by simp only [List.length_cons]; omega⟩

/-- The same of a packet, legal or not. -/
theorem runPacket_frame {p : Packet} {s t : State} (h : runPacket p s = .next t) :
    t.parser = s.parser ∧ t.cmdIn = s.cmdIn ∧ t.kkMax = s.kkMax ∧ t.respCap = s.respCap ∧ t.rst = s.rst ∧
      ∃ r : List Word, t.respOut = s.respOut ++ r ∧ r.length ≤ 2 := by
  unfold runPacket at h
  split at h
  · exact (ended_of_exec h).frame
  · cases h
    exact ⟨rfl, rfl, rfl, rfl, rfl, _, rfl, by simp⟩

/-- The parser with header `h` and the words `ws` after it (R74): a whole packet, or one that is kept. -/
theorem collect_spec (h : Word) (ws : List Word) (s : State) :
    ((Header.narg h).toNat ≤ ws.length ∧ collect h ws s =
      .packet ⟨h, ws.take (Header.narg h).toNat⟩ { s with parser := .header, cmdIn := ws.drop (Header.narg h).toNat }) ∨
    (ws.length < (Header.narg h).toNat ∧ collect h ws s = .incomplete { s with parser := .operands h ws, cmdIn := [] }) := by
  by_cases hn : (Header.narg h).toNat ≤ ws.length
  · exact .inl ⟨hn, if_pos hn⟩
  · exact .inr ⟨by omega, if_neg hn⟩

/-- A step with `rst` released and a command waiting (R227). -/
theorem step_of_wait {s : State} {w : EntropyWait} (hr : s.rst = false) (hw : s.wait = some w) :
    step s = exec w.cmd.instr (s.resumeWith w) := by
  unfold step advance
  rw [hr, hw]
  rfl

/-- A step with `rst` released and no command waiting (R74, R229). -/
theorem step_of_no_wait {s : State} (hr : s.rst = false) (hw : s.wait = none) :
    step s = match fetch s with
      | .incomplete t => .next t
      | .packet p t => startIfRoom s (runPacket p t) := by
  unfold step advance
  rw [hr, hw]
  rfl

/-- When a command may start (R229). -/
theorem roomFor_iff {s t : State} :
    roomFor s t = true ↔ s.respOut.length + 1 ≤ s.respCap ∧ t.respOut.length ≤ s.respCap := by
  simp [roomFor]

/-- With room for two words every command is started (R229, R70). -/
theorem startIfRoom_of_room {s u : State} {p : Packet} (h : s.respOut.length + 2 ≤ s.respCap)
    (hu : u.respOut = s.respOut) : startIfRoom s (runPacket p u) = runPacket p u := by
  cases hr : runPacket p u with
  | next t =>
    obtain ⟨-, -, -, -, -, r, h1, h2⟩ := runPacket_frame hr
    have h3 := congrArg List.length h1
    rw [hu, List.length_append] at h3
    exact if_pos (roomFor_iff.2 ⟨by omega, by omega⟩)
  | fault => rfl
  | refused => rfl

theorem Selector.mem_all (r : Selector) : r ∈ Selector.all := by cases r <;> decide

@[simp] theorem Selector.ofCode_code (r : Selector) : Selector.ofCode r.code = some r := by cases r <;> decide

theorem Selector.code_of_ofCode {sel : Index} {r : Selector} (h : Selector.ofCode sel = some r) : r.code = sel := by
  simpa using List.find?_some h

end Sys2Proof.Machine
end

