-- ==== Sys2Proof/Laws/Dx.lean ====
section
/-!
SUPPORT. The shared operations of the DX unit: trial division, the seeded values, the two slots of a step, and the rounding
of the unit output, each said once.
-/

namespace Sys2Proof.Machine

/-- Trial division finds every divisor from `d` up whose square is at most `n`, if the fuel reaches `n` (R8). -/
theorem noDivisorFrom_iff {fuel d n : Nat} (hd : 2 ≤ d) (hf : n < d + fuel) :
    noDivisorFrom fuel d n = true ↔ ∀ k, d ≤ k → k * k ≤ n → ¬k ∣ n := by
  induction fuel generalizing d with
  | zero =>
    simp only [noDivisorFrom, true_iff]
    intro k hk hkk
    nlinarith
  | succ fuel ih =>
    unfold noDivisorFrom
    split
    · next h =>
      simp only [true_iff]
      intro k hk hkk
      nlinarith
    · split
      · next h0 h =>
        simp only [Bool.false_eq_true, false_iff]
        exact fun H => H d (Nat.le_refl d) (by omega) (Nat.dvd_of_mod_eq_zero h)
      · next h0 h =>
        rw [ih (by omega) (by omega)]
        refine ⟨fun H k hk hkk => ?_, fun H k hk => H k (by omega)⟩
        rcases Nat.eq_or_lt_of_le hk with rfl | hk
        · exact fun hdv => h (Nat.mod_eq_zero_of_dvd hdv)
        · exact H k hk hkk

/-- The fallback of R105 keeps the number of values. -/
theorem dxFixZero_length (v : List Nat) : (dxFixZero v).length = v.length := by
  unfold dxFixZero
  split
  · cases v <;> rfl
  · rfl

theorem dxSeedValues_length (pp : Nat) (ws : List Word) : (dxSeedValues pp ws).length = ws.length := by
  rw [dxSeedValues, dxFixZero_length, List.length_map]

/-- Below twice the modulus, a remainder is the number or the number less the modulus. -/
theorem mod_wrap {a k : Nat} (h : a < 2 * k) : a % k = if a < k then a else a - k := by
  split
  · next h => exact Nat.mod_eq_of_lt h
  · rw [Nat.mod_eq_sub_mod (by omega), Nat.mod_eq_of_lt (by omega)]

theorem DxUnit.Live.oldest_lt {K : Nat} {d : DxUnit} (h : d.Live K) : dxOldest d < d.kk.toNat :=
  Nat.mod_lt _ (by have := h.kk_ge; omega)

theorem DxUnit.Live.lagged_lt {K : Nat} {d : DxUnit} (h : d.Live K) : dxLagged d < d.kk.toNat :=
  Nat.mod_lt _ (by have := h.kk_ge; omega)

/-- The two slots a step reads differ, as `0 < ss < kk` (R28). -/
theorem DxUnit.Live.lagged_ne_oldest {K : Nat} {d : DxUnit} (h : d.Live K) : dxLagged d ≠ dxOldest d := by
  have := h.cur_lt
  have := h.ss_lt
  have := h.ss_pos
  unfold dxLagged dxOldest
  rw [mod_wrap (by omega), mod_wrap (by omega)]
  (repeat' split) <;> omega

/-- On a unit that meets R28 the step finds both its slots. -/
theorem dxStep_of_live {s : State} (h : s.dx.Live s.kkMax.toNat) :
    dxStep s =
      let v := (s.dx.bb.toNat * (s.dx.slots.read (dxLagged s.dx)).toNat + (s.dx.slots.read (dxOldest s.dx)).toNat) %
        s.dx.pp.toNat
      some (v, s.setDx { s.dx with
        slots := s.dx.slots.write (dxOldest s.dx) (BitVec.ofNat 31 v)
        cur := BitVec.ofNat 16 (dxOldest s.dx) }) :=
  dxStep_of_lt (Nat.lt_of_lt_of_le h.lagged_lt h.kk_le) (Nat.lt_of_lt_of_le h.oldest_lt h.kk_le)

/-- The search of R108 stops at the least `k` it looks for, if there is one within its fuel. -/
theorem ratioShift_spec {n d fuel k m : Nat} (hkm : k ≤ m) (hm : m < k + fuel) (hd : d ≤ n * 2 ^ m) :
    k ≤ ratioShift n d fuel k ∧ ratioShift n d fuel k ≤ m ∧ d ≤ n * 2 ^ ratioShift n d fuel k ∧
      ∀ j, k ≤ j → j < ratioShift n d fuel k → n * 2 ^ j < d := by
  induction fuel generalizing k with
  | zero => omega
  | succ fuel ih =>
    unfold ratioShift
    split
    · next h => exact ⟨Nat.le_refl k, hkm, h, fun j _ _ => by omega⟩
    · next h =>
      have hne : k ≠ m := fun e => h (e ▸ hd)
      obtain ⟨a, b, c, e⟩ := ih (k := k + 1) (by omega) (by omega)
      refine ⟨by omega, b, c, fun j hj1 hj2 => ?_⟩
      rcases Nat.eq_or_lt_of_le hj1 with rfl | hj
      · omega
      · exact e j hj hj2

/-- The rounded quotient is within half a unit, and even where it is exactly half a unit off (R108). -/
theorem roundNearestEven_spec {S d : Nat} (hd : 0 < d) :
    let q := roundNearestEven (S / d) (S % d) d
    2 * (q * d) ≤ 2 * S + d ∧ 2 * S ≤ 2 * (q * d) + d ∧
      (2 * (q * d) = 2 * S + d ∨ 2 * S = 2 * (q * d) + d → q % 2 = 0) := by
  have h := Nat.div_add_mod S d
  have h2 := Nat.mod_lt S hd
  generalize S / d = a at *
  generalize S % d = r at *
  have e1 : (a + 1) * d = d * a + d := by ring
  have e2 : a * d = d * a := Nat.mul_comm a d
  unfold roundNearestEven
  simp only
  split
  · next hc =>
    rw [e1]
    rcases hc with hc | ⟨hc, ho⟩
    · exact ⟨by omega, by omega, fun hh => by omega⟩
    · exact ⟨by omega, by omega, fun hh => by omega⟩
  · next hc =>
    rw [e2]
    refine ⟨by omega, by omega, fun hh => ?_⟩
    by_contra ho
    exact hc (.inr ⟨by omega, by omega⟩)

end Sys2Proof.Machine
end

