-- ==== Sys2Proof/Laws/Memory.lean ====
section
/-!
SUPPORT. The laws of the slot buffer: a read after a write, the canonical form, and the buffer of a list of values.
-/

namespace Sys2Proof.Machine

@[simp] theorem Memory.read_nil (i : Nat) : Memory.read [] i = 0 := rfl

theorem Memory.read_cons (a : Nat) (v : Slot) (m : Memory) (i : Nat) :
    Memory.read ((a, v) :: m) i = if i = a then v else Memory.read m i := rfl

/-- An index that is not listed reads 0. -/
theorem Memory.read_of_not_listed {m : Memory} {i : Nat} (h : ∀ c ∈ m, c.1 ≠ i) : m.read i = 0 := by
  induction m with
  | nil => rfl
  | cons c m ih =>
    obtain ⟨a, v⟩ := c
    rw [Memory.read_cons, if_neg fun e => h (a, v) (by simp) e.symm]
    exact ih fun c hc => h c (by simp [hc])

theorem Memory.mem_erase {m : Memory} {i : Nat} {c : Nat × Slot} : c ∈ m.erase i ↔ c ∈ m ∧ c.1 ≠ i := by
  simp [Memory.erase]

theorem Memory.read_erase_same (m : Memory) (i : Nat) : (m.erase i).read i = 0 :=
  Memory.read_of_not_listed fun _ hc => (Memory.mem_erase.1 hc).2

theorem Memory.read_erase_other (m : Memory) {i j : Nat} (h : j ≠ i) : (m.erase i).read j = m.read j := by
  induction m with
  | nil => rfl
  | cons c m ih =>
    obtain ⟨a, v⟩ := c
    unfold Memory.erase at ih ⊢
    by_cases ha : a = i
    · subst ha
      simpa [Memory.read_cons, h] using ih
    · simp only [List.filter_cons, bne_iff_ne, ne_eq, ha, not_false_eq_true, if_true, Memory.read_cons, ih]

theorem Memory.read_insert_same {m : Memory} {i : Nat} (v : Slot) (h : ∀ c ∈ m, c.1 ≠ i) : (m.insert i v).read i = v := by
  induction m with
  | nil => simp [Memory.insert, Memory.read_cons]
  | cons c m ih =>
    obtain ⟨a, w⟩ := c
    have ha : i ≠ a := fun e => h (a, w) (by simp) e.symm
    unfold Memory.insert
    split
    · simp [Memory.read_cons]
    · rw [Memory.read_cons, if_neg ha]
      exact ih fun c hc => h c (by simp [hc])

theorem Memory.read_insert_other (m : Memory) (v : Slot) {i j : Nat} (h : j ≠ i) : (m.insert i v).read j = m.read j := by
  induction m with
  | nil => simp [Memory.insert, Memory.read_cons, h]
  | cons c m ih =>
    obtain ⟨a, w⟩ := c
    unfold Memory.insert
    split
    · rw [Memory.read_cons, if_neg h]
    · rw [Memory.read_cons, Memory.read_cons, ih]

/-- A read after a write to the same slot gives the value written. -/
@[simp] theorem Memory.read_write_same (m : Memory) (i : Nat) (v : Slot) : (m.write i v).read i = v := by
  unfold Memory.write
  split
  · next h => rw [h, Memory.read_erase_same]
  · exact Memory.read_insert_same v fun _ hc => (Memory.mem_erase.1 hc).2

/-- A write leaves every other slot alone. -/
theorem Memory.read_write_other (m : Memory) (v : Slot) {i j : Nat} (h : j ≠ i) : (m.write i v).read j = m.read j := by
  unfold Memory.write
  split
  · exact Memory.read_erase_other m h
  · rw [Memory.read_insert_other _ _ h, Memory.read_erase_other m h]

theorem Memory.mem_insert {m : Memory} {i : Nat} {v : Slot} {c : Nat × Slot} (h : c ∈ m.insert i v) :
    c = (i, v) ∨ c ∈ m := by
  induction m with
  | nil => simpa [Memory.insert] using h
  | cons d m ih =>
    obtain ⟨a, w⟩ := d
    unfold Memory.insert at h
    split at h
    · simpa using h
    · rcases List.mem_cons.1 h with rfl | h
      · simp
      · rcases ih h with h | h <;> simp [h]

/-- Every cell listed after a write is the one written or was listed before. -/
theorem Memory.mem_write {m : Memory} {i : Nat} {v : Slot} {c : Nat × Slot} (h : c ∈ m.write i v) :
    c = (i, v) ∨ c ∈ m := by
  unfold Memory.write at h
  split at h
  · exact .inr (Memory.mem_erase.1 h).1
  · exact (Memory.mem_insert h).imp_right fun h => (Memory.mem_erase.1 h).1

theorem Memory.wf_nil : Memory.wf [] := by simp [Memory.wf]

theorem Memory.wf_erase {m : Memory} (h : m.wf) (i : Nat) : (m.erase i).wf :=
  ⟨h.1.filter _, fun c hc => h.2 c (Memory.mem_erase.1 hc).1⟩

theorem Memory.sorted_insert {m : Memory} {i : Nat} (v : Slot) (hm : m.Pairwise fun c d => c.1 < d.1)
    (h : ∀ c ∈ m, c.1 ≠ i) : (m.insert i v).Pairwise fun c d => c.1 < d.1 := by
  induction m with
  | nil => simp [Memory.insert]
  | cons d m ih =>
    obtain ⟨a, w⟩ := d
    have hrest := List.pairwise_cons.1 hm
    have hai : a ≠ i := h (a, w) (by simp)
    unfold Memory.insert
    split
    · next hlt =>
      refine List.pairwise_cons.2 ⟨fun c hc => ?_, hm⟩
      rcases List.mem_cons.1 hc with rfl | hc
      · exact hlt
      · exact Nat.lt_trans hlt (hrest.1 c hc)
    · next hge =>
      refine List.pairwise_cons.2 ⟨fun c hc => ?_, ih hrest.2 fun c hc => h c (by simp [hc])⟩
      rcases Memory.mem_insert hc with rfl | hc
      · show a < i
        omega
      · exact hrest.1 c hc

/-- A write keeps the canonical form. -/
theorem Memory.wf_write {m : Memory} (h : m.wf) (i : Nat) (v : Slot) : (m.write i v).wf := by
  unfold Memory.write
  split
  · exact Memory.wf_erase h i
  · next hv =>
    have he := Memory.wf_erase h i
    refine ⟨Memory.sorted_insert v he.1 fun _ hc => (Memory.mem_erase.1 hc).2, fun c hc => ?_⟩
    rcases Memory.mem_insert hc with rfl | hc
    · exact hv
    · exact he.2 c hc

theorem Memory.mem_ofValuesFrom {i : Nat} {vs : List Slot} {c : Nat × Slot} (h : c ∈ Memory.ofValuesFrom i vs) :
    i ≤ c.1 ∧ c.1 < i + vs.length ∧ c.2 ≠ 0 := by
  induction vs generalizing i with
  | nil => simp [Memory.ofValuesFrom] at h
  | cons v vs ih =>
    unfold Memory.ofValuesFrom at h
    split at h
    · obtain ⟨h1, h2, h3⟩ := ih h
      exact ⟨by omega, by simp only [List.length_cons]; omega, h3⟩
    · next hv =>
      rcases List.mem_cons.1 h with rfl | h
      · exact ⟨Nat.le_refl i, by simp, hv⟩
      · obtain ⟨h1, h2, h3⟩ := ih h
        exact ⟨by omega, by simp only [List.length_cons]; omega, h3⟩

/-- The buffer of a list of values is in canonical form. -/
theorem Memory.wf_ofValues (vs : List Slot) : (Memory.ofValues vs).wf := by
  refine ⟨?_, fun c hc => (Memory.mem_ofValuesFrom hc).2.2⟩
  unfold Memory.ofValues
  suffices h : ∀ i, (Memory.ofValuesFrom i vs).Pairwise fun c d => c.1 < d.1 from h 0
  induction vs with
  | nil => intro i; simp [Memory.ofValuesFrom]
  | cons v vs ih =>
    intro i
    unfold Memory.ofValuesFrom
    split
    · exact ih (i + 1)
    · exact List.pairwise_cons.2 ⟨fun c hc => (Memory.mem_ofValuesFrom hc).1, ih (i + 1)⟩

theorem Memory.read_ofValuesFrom (vs : List Slot) (i j : Nat) :
    (Memory.ofValuesFrom i vs).read (i + j) = vs.getD j 0 := by
  induction vs generalizing i j with
  | nil => simp [Memory.ofValuesFrom]
  | cons v vs ih =>
    unfold Memory.ofValuesFrom
    cases j with
    | zero =>
      split
      · next hv =>
        simp only [Nat.add_zero, List.getD_cons_zero, hv]
        exact Memory.read_of_not_listed fun c hc => by
          have := (Memory.mem_ofValuesFrom hc).1
          omega
      · simp [Memory.read_cons]
    | succ j =>
      have e : i + (j + 1) = i + 1 + j := by omega
      split
      · rw [e, ih]; simp
      · rw [Memory.read_cons, if_neg (by omega), e, ih]; simp

/-- Slot `j` of the buffer of a list is the list's `j`-th value, 0 past its end. -/
@[simp] theorem Memory.read_ofValues (vs : List Slot) (j : Nat) : (Memory.ofValues vs).read j = vs.getD j 0 := by
  simpa [Memory.ofValues] using Memory.read_ofValuesFrom vs 0 j

/-- Every slot listed in the buffer of a list lies within it. -/
theorem Memory.mem_ofValues {vs : List Slot} {c : Nat × Slot} (h : c ∈ Memory.ofValues vs) : c.1 < vs.length := by
  simpa using (Memory.mem_ofValuesFrom h).2.1

/-- The buffer at reset is in canonical form. -/
theorem Memory.wf_reset : State.reset.dx.slots.wf := Memory.wf_nil

end Sys2Proof.Machine
end

