-- ==== Sys2Proof/Laws/PerInstr.lean ====
section
/-!
SUPPORT. Statements about every command as syntax, one lemma per constructor.
-/

namespace Sys2Proof.Laws

/-- A command's packet passes every check of `WellFormed.lean`, and its length in words is one of those R79 lists. -/
def EncodedForm.Statement (i : Instr) : Prop :=
  (encode i).wellFormed = true ∧ (encode i).words.length ∈ [1, 3, 4, 5, 6]

/-- The packet of any command is well formed: its fields are those of one row of R72. -/
theorem encode_wellFormed (i : Instr) : (encode i).wellFormed = true := by
  have hop : (encode i).header.toNat % 2 ^ 8 = i.opcode.code.toNat := by
    rw [← Header.op_toNat]; exact congrArg BitVec.toNat (Header.op_make _ _ _ _)
  have hn : (encode i).header.toNat / 2 ^ 8 % 2 ^ 8 = i.opcode.narg.toNat := by
    rw [← Header.narg_toNat]; exact congrArg BitVec.toNat (Header.narg_make _ _ _ _)
  have hi : (encode i).header.toNat / 2 ^ 16 % 2 ^ 16 = i.imm.toNat := by
    rw [← Header.imm_toNat]; exact congrArg BitVec.toNat (Header.imm_make _ _ _ _)
  have hr : (encode i).header.toNat / 2 ^ 32 = 0 := by
    rw [← Header.rsv_toNat]; exact congrArg BitVec.toNat (Header.rsv_make _ _ _ _)
  simp only [Packet.wellFormed, Packet.framed, Packet.opListed, Packet.nargRight, Packet.immUsedOrZero, Packet.rsvZero,
    Packet.shape, hop, hn, hi, hr, Opcode.shape_code]
  cases i <;> rfl

theorem EncodedForm.dxInitSeed (bb pp kk ss seed : Word) : EncodedForm.Statement (.dxInitSeed bb pp kk ss seed) :=
  ⟨encode_wellFormed _, by simp [encode, Packet.words, Instr.operands]⟩

theorem EncodedForm.dxInitEnt (bb pp kk ss : Word) : EncodedForm.Statement (.dxInitEnt bb pp kk ss) :=
  ⟨encode_wellFormed _, by simp [encode, Packet.words, Instr.operands]⟩

theorem EncodedForm.dxNextRaw : EncodedForm.Statement .dxNextRaw :=
  ⟨encode_wellFormed _, by simp [encode, Packet.words, Instr.operands]⟩

theorem EncodedForm.dxNextUnit : EncodedForm.Statement .dxNextUnit :=
  ⟨encode_wellFormed _, by simp [encode, Packet.words, Instr.operands]⟩

theorem EncodedForm.dxClr : EncodedForm.Statement .dxClr :=
  ⟨encode_wellFormed _, by simp [encode, Packet.words, Instr.operands]⟩

theorem EncodedForm.cmInitSeed (bb1 bb2 seed : Word) : EncodedForm.Statement (.cmInitSeed bb1 bb2 seed) :=
  ⟨encode_wellFormed _, by simp [encode, Packet.words, Instr.operands]⟩

theorem EncodedForm.cmInitEnt (bb1 bb2 : Word) : EncodedForm.Statement (.cmInitEnt bb1 bb2) :=
  ⟨encode_wellFormed _, by simp [encode, Packet.words, Instr.operands]⟩

theorem EncodedForm.cmNextRaw : EncodedForm.Statement .cmNextRaw :=
  ⟨encode_wellFormed _, by simp [encode, Packet.words, Instr.operands]⟩

theorem EncodedForm.cmNextUnit : EncodedForm.Statement .cmNextUnit :=
  ⟨encode_wellFormed _, by simp [encode, Packet.words, Instr.operands]⟩

theorem EncodedForm.cmClr : EncodedForm.Statement .cmClr :=
  ⟨encode_wellFormed _, by simp [encode, Packet.words, Instr.operands]⟩

theorem EncodedForm.rdReg (sel : Index) : EncodedForm.Statement (.rdReg sel) :=
  ⟨encode_wellFormed _, by simp [encode, Packet.words, Instr.operands]⟩

theorem EncodedForm.rdSlot (i : Index) : EncodedForm.Statement (.rdSlot i) :=
  ⟨encode_wellFormed _, by simp [encode, Packet.words, Instr.operands]⟩

end Sys2Proof.Laws
end

