-- ==== Sys2Proof/Machine/Assembler.lean ====
section
/-!
DEFINITION. The assembler of `30_encoding.md` R81 and R82: one written command to the commands it stands for, or none if it
is not written as R81 says. No step uses it; the block receives packets only.
-/

namespace Sys2Proof.Machine

/-- The mnemonic of a row of R72. -/
def mnemonicOf : Opcode → String
  | .dxInitSeed => "DX.INIT.SEED"
  | .dxInitEnt => "DX.INIT.ENT"
  | .dxNextRaw => "DX.NEXT.RAW"
  | .dxNextUnit => "DX.NEXT.UNIT"
  | .dxClr => "DX.CLR"
  | .cmInitSeed => "CM.INIT.SEED"
  | .cmInitEnt => "CM.INIT.ENT"
  | .cmNextRaw => "CM.NEXT.RAW"
  | .cmNextUnit => "CM.NEXT.UNIT"
  | .cmClr => "CM.CLR"
  | .rdReg => "RD.REG"
  | .rdSlot => "RD.SLOT"

/-- The register names of R181, by which a selector may be written (R81). -/
def Selector.name : Selector → String
  | .blockId => "BLOCK_ID"
  | .kkMaxReg => "KK_MAX_REG"
  | .ppMaxReg => "PP_MAX_REG"
  | .unitFlags => "UNIT_FLAGS"
  | .dxBb => "DX_BB"
  | .dxPp => "DX_PP"
  | .dxKk => "DX_KK"
  | .dxSs => "DX_SS"
  | .dxCur => "DX_CUR"
  | .cmPcgStateLo => "CM_PCG_STATE_LO"
  | .cmPcgStateHi => "CM_PCG_STATE_HI"
  | .cmPcgIncLo => "CM_PCG_INC_LO"
  | .cmPcgIncHi => "CM_PCG_INC_HI"
  | .cmX1 => "CM_X1"
  | .cmC1 => "CM_C1"
  | .cmX2 => "CM_X2"
  | .cmC2 => "CM_C2"
  | .cmBb1 => "CM_BB1"
  | .cmBb2 => "CM_BB2"

/-- The text between the places where `c` stands. -/
def splitOnChar (c : Char) : List Char → List (List Char)
  | [] => [[]]
  | x :: xs =>
    if x = c then [] :: splitOnChar c xs
    else match splitOnChar c xs with
      | [] => [[x]]
      | t :: ts => (x :: t) :: ts

/-- The text without the spaces around it. -/
def stripSpaces (t : List Char) : List Char :=
  ((t.dropWhile (· == ' ')).reverse.dropWhile (· == ' ')).reverse

/-- The value of a hexadecimal digit. -/
def digitValue (c : Char) : Option Nat :=
  if '0' ≤ c ∧ c ≤ '9' then some (c.toNat - '0'.toNat)
  else if 'a' ≤ c ∧ c ≤ 'f' then some (c.toNat - 'a'.toNat + 10)
  else if 'A' ≤ c ∧ c ≤ 'F' then some (c.toNat - 'A'.toNat + 10)
  else none

/-- The number these digits of base `b` go on writing after `acc`. -/
def digitsFrom (b acc : Nat) : List Char → Option Nat
  | [] => some acc
  | c :: cs =>
    match digitValue c with
    | some d => if d < b then digitsFrom b (b * acc + d) cs else none
    | none => none

/-- A decimal or `0x`-hexadecimal integer (R81). -/
def parseNumber : List Char → Option Nat
  | [] => none
  | '0' :: 'x' :: c :: cs => digitsFrom 16 0 (c :: cs)
  | c :: cs => digitsFrom 10 0 (c :: cs)

/-- An operand word: an integer that fits 64 bits. -/
def parseWord (t : List Char) : Option Word :=
  match parseNumber t with
  | some n => if n < 2 ^ 64 then some (BitVec.ofNat 64 n) else none
  | none => none

/-- The `IMM16` operand of `RD.SLOT`: an integer that fits 16 bits. -/
def parseIndex (t : List Char) : Option Index :=
  match parseNumber t with
  | some n => if n < 2 ^ 16 then some (BitVec.ofNat 16 n) else none
  | none => none

/-- The `IMM16` operand of `RD.REG`: an integer, or a register's name. -/
def parseSelector (t : List Char) : Option Index :=
  match Selector.all.find? fun r => r.name.toList == t with
  | some r => some r.code
  | none => parseIndex t

/-- The operand words, if each is one. -/
def parseWords : List (List Char) → Option (List Word)
  | [] => some []
  | t :: ts =>
    match parseWord t, parseWords ts with
    | some w, some ws => some (w :: ws)
    | _, _ => none

/-- A core command from its row of R72 and its written operands (R81). -/
def assembleCore (o : Opcode) (ops : List (List Char)) : Option Instr :=
  match o, ops with
  | .rdReg, [t] => (parseSelector t).map .rdReg
  | .rdSlot, [t] => (parseIndex t).map .rdSlot
  | .rdReg, _ => none
  | .rdSlot, _ => none
  | o, ts => (parseWords ts).bind fun ws => o.build ws 0

/-- A pseudo-instruction from its mnemonic and its operand words (R82). `DX.INIT.ID` is not among them: its operand is an id
that only the host's catalog resolves (R5). -/
def assemblePseudo (m : List Char) (ws : List Word) : Option Pseudo :=
  match ws with
  | [seed] => if m = "CM.INIT.DEFAULT".toList then some (.cmInitDefault seed) else none
  | [] =>
    if m = "CM.INIT.DEFAULT.ENT".toList then some .cmInitDefaultEnt
    else if m = "RD.PCG.STATE".toList then some .rdPcgState
    else if m = "RD.PCG.INC".toList then some .rdPcgInc
    else none
  | _ => none

/-- The operands written after a mnemonic: none, or as many as the commas separate. -/
def writtenOperands (t : List Char) : List (List Char) :=
  if stripSpaces t = [] then [] else (splitOnChar ',' t).map stripSpaces

/-- The commands one written line stands for (R81, R82). -/
def assemble (line : String) : Option (List Instr) :=
  let t := stripSpaces line.toList
  let m := t.takeWhile (· != ' ')
  let ops := writtenOperands (t.dropWhile (· != ' '))
  match Opcode.all.find? fun o => (mnemonicOf o).toList == m with
  | some o => (assembleCore o ops).map fun i => [i]
  | none => ((parseWords ops).bind (assemblePseudo m)).map Pseudo.expand

end Sys2Proof.Machine
end

