-- ==== Sys2Proof/Tests/Slice0.lean ====
section
/-!
SUPPORT. The model's own tests. Section 1: one ill-formed packet for each check of `WellFormed.lean`. Section 2: words written
out from R71 and R72. Section 3: at most two steps per command, their results taken from `spec/95_test_vectors.md` (vector
named at each). Section 4: a concrete state and operands for the hypotheses of every obligation that has any.
-/

namespace Sys2Proof.Tests

open Sys2Proof.Machine Sys2Proof.Claims

/-! # 1. Ill-formed packets -/

/-- A header that announces two operand words, with one. -/
theorem test_wellFormed_framed : (Packet.mk 0x0000000000000212 [2]).wellFormed = false := by decide

/-- Opcode 0x06 is reserved (R73). -/
theorem test_wellFormed_opListed : (Packet.mk 0x0000000000000206 [7, 8]).wellFormed = false := by decide

/-- `DX.NEXT.RAW` has no operand words. -/
theorem test_wellFormed_nargRight : (Packet.mk 0x0000000000000103 [9]).wellFormed = false := by decide

/-- `DX.CLR` does not use IMM16. -/
theorem test_wellFormed_immUsedOrZero : (Packet.mk 0x0000000000010005 []).wellFormed = false := by decide

/-- `RD.REG` with RSV bit 63 set. -/
theorem test_wellFormed_rsvZero : (Packet.mk 0x8000000000140021 []).wellFormed = false := by decide

/-- Its legal neighbour. -/
theorem test_wellFormed_legal : (Packet.mk 0x0000000000140021 []).wellFormed = true := by decide

/-! # 2. Decoding -/

/-- `RSV` 32 bits, `IMM16` 16 bits, `NARG` = 5 and `OP` = 0x01, bit by bit. -/
theorem test_decode_dxInitSeed :
    decodeWords [0b0000000000000000000000000000000000000000000000000000010100000001, 3, 101, 5, 2, 0] =
      .ok (.dxInitSeed 3 101 5 2 0, []) := by rfl

theorem test_decode_dx :
    decodeWords [0x0000000000000402, 3, 101, 5, 2] = .ok (.dxInitEnt 3 101 5 2, []) ∧
    decodeWords [0x0000000000000003] = .ok (.dxNextRaw, []) ∧
    decodeWords [0x0000000000000004] = .ok (.dxNextUnit, []) ∧
    decodeWords [0x0000000000000005] = .ok (.dxClr, []) := ⟨rfl, rfl, rfl, rfl⟩

/-- `NARG` = 3 and `OP` = 0x11, bit by bit. -/
theorem test_decode_cmInitSeed :
    decodeWords [0b0000000000000000000000000000000000000000000000000000001100010001, 5, 7, 9] =
      .ok (.cmInitSeed 5 7 9, []) := by rfl

theorem test_decode_cm :
    decodeWords [0x0000000000000212, 2, 3] = .ok (.cmInitEnt 2 3, []) ∧
    decodeWords [0x0000000000000013] = .ok (.cmNextRaw, []) ∧
    decodeWords [0x0000000000000014] = .ok (.cmNextUnit, []) ∧
    decodeWords [0x0000000000000015] = .ok (.cmClr, []) := ⟨rfl, rfl, rfl, rfl⟩

/-- `IMM16` = 0x8001 and `OP` = 0x21, bit by bit: the highest and the lowest bit of the selector. -/
theorem test_decode_rdReg :
    decodeWords [0b0000000000000000000000000000000010000000000000010000000000100001] = .ok (.rdReg 0x8001, []) := by rfl

theorem test_decode_rdSlot : decodeWords [0x0000000003FF0022] = .ok (.rdSlot 1023, []) := by rfl

/-- V-DEC-1, one row for each check, and the two rows in which several checks fail at once. -/
theorem test_decode_errors :
    decodeWords [0x00000000000000FF] = .error (.illegal .reservedOp) ∧
    decodeWords [0x0000000000000401, 3, 101, 5, 2] = .error (.illegal .nargMismatch) ∧
    decodeWords [0x00000000FFFF0501, 3, 101, 5, 2, 0] = .error (.illegal .immNonzero) ∧
    decodeWords [0x0000000100000003] = .error (.illegal .rsvNonzero) ∧
    decodeWords [0x0000000100010103, 0] = .error (.illegal .nargMismatch) ∧
    decodeWords [0x0000000100010003] = .error (.illegal .immNonzero) := ⟨rfl, rfl, rfl, rfl, rfl, rfl⟩

/-- The bytes of `RD.REG 0x0014`, low byte first (R53). -/
theorem test_decode_octets : decodeOctets [0x21, 0x00, 0x14, 0, 0, 0, 0, 0] = .ok (.rdReg 0x0014, []) := by rfl

/-- P2 of the test vectors: the pseudo-instruction's command, and a register by its name (R81, R82). -/
theorem test_assemble :
    assemble "CM.INIT.DEFAULT 0" = some [.cmInitSeed 0xFFFFFFFFFFFFFD1A 0xFFFFFFFFFFFEC6D9 0] ∧
    assemble "RD.PCG.STATE" = some [.rdReg 0x0020, .rdReg 0x0021] ∧
    assemble "RD.REG CM_C2" = some [.rdReg 0x0027] ∧
    assemble "DX.INIT.SEED 3, 0x65, 5, 2, 0" = some [.dxInitSeed 3 101 5 2 0] ∧
    assemble "DX.NEXT.RAW 1" = none := by decide +kernel

/-! # 3. Single steps -/

/-- The state of a step that goes on. -/
def nextOf : Host.Outcome State Fault Refusal → Option State
  | .next t => some t
  | .fault _ => none
  | .refused _ => none

/-- The unit V-DX-1 seeds. -/
def dxOne : DxUnit := ⟨true, 3, 101, 5, 2, 4, [(0, 67), (1, 26), (2, 88), (3, 12), (4, 14)]⟩

/-- The unit V-CM-1 seeds. -/
def cmOne : CmUnit :=
  ⟨true, 0xEAECAE570BE9588304C20265ECD6861A, 0x0D88BA3100128A9FF1177150E49903D9, 0x1B39896A51A8749C, 0x53CB9F0C747EA2EA,
    0x2C829ABE1F4532E2, 0xC584133AC916AB3C, 0xFFFFFFFFFFFFFD1A, 0xFFFFFFFFFFFEC6D9⟩

def dxState : State := { State.reset with dx := dxOne }
def cmState : State := { State.reset with cm := cmOne }
def bothState : State := { State.reset with dx := dxOne, cm := cmOne }

/-- V-DX-1: the packet at the head of the channel, one step. -/
theorem test_dxInitSeed :
    nextOf (step { State.reset with cmdIn := [0x0000000000000501, 3, 101, 5, 2, 0] }) =
      some { dxState with respOut := [0x0000000001010000] } := by decide +kernel

/-- V-DX-6: the all-zero fallback. -/
theorem test_dxInitSeed_fallback :
    (nextOf (exec (.dxInitSeed 1 2 2 1 2) State.reset)).map (fun t => t.dx) =
      some ⟨true, 1, 2, 2, 1, 1, [(0, 1)]⟩ := by decide +kernel

/-- V-DX-7: five words are drawn, no more. -/
theorem test_dxInitEnt :
    nextOf (exec (.dxInitEnt 3 101 5 2) { State.reset with entropyIn := [0, 101, 202, 0, 0, 9] }) =
      some { State.reset with
        dx := ⟨true, 3, 101, 5, 2, 4, [(0, 1)]⟩, respOut := [0x0000000001020000], entropyIn := [9] } := by decide +kernel

/-- V-DX-13: words at the top of the range, reduced mod 2^31 - 1. -/
theorem test_dxInitEnt_reduced :
    dxSeedValues 2147483647 [0xFFFFFFFFFFFFFFFF, 0xFFFFFFFFFFFFFFFF, 0xFFFFFFFFFFFFFFFF] = [3, 3, 3] := by decide +kernel

/-- V-DX-1, row 1. -/
theorem test_dxNextRaw :
    nextOf (exec .dxNextRaw dxState) =
      some { State.reset with
        dx := ⟨true, 3, 101, 5, 2, 0, [(0, 2), (1, 26), (2, 88), (3, 12), (4, 14)]⟩
        respOut := [0x0000000101030000, 2] } := by decide +kernel

/-- V-DX-14: the largest operands, whose output is 0. -/
theorem test_dxNextRaw_zero :
    (nextOf (exec .dxNextRaw { State.reset with
      dx := ⟨true, 2147483646, 2147483647, 3, 1, 2, [(0, 2147483646), (1, 2147483646), (2, 2147483646)]⟩ })).map
        (fun t => (t.dx.slots, t.respOut)) =
      some ([(1, 2147483646), (2, 2147483646)], [0x0000000101030000, 0]) := by decide +kernel

/-- V-DX-1, row 1, unit column. -/
theorem test_dxNextUnit :
    (nextOf (exec .dxNextUnit dxState)).map (fun t => (t.dx.cur, t.respOut)) =
      some (0, [0x0000000101040000, 0x3F9446F86562D9FB]) := by decide +kernel

/-- V-F-1, V-F-4, V-F-6, V-F-7, V-F-8, V-F-10. -/
theorem test_f64Ratio :
    f64Ratio 0 101 = 0 ∧ f64Ratio 1 2 = 0x3FE0000000000000 ∧ f64Ratio 2 3 = 0x3FE5555555555555 ∧
    f64Ratio 1 2147483647 = 0x3E00000000200000 ∧ f64Ratio 2147483646 2147483647 = 0x3FEFFFFFFFC00000 ∧
    f64Ratio 1073741823 2147483647 = 0x3FDFFFFFFFC00000 := by decide +kernel

/-- V-DX-11: the clear, and the same on a block that holds both units (the CM unit stays). -/
theorem test_dxClr :
    nextOf (exec .dxClr dxState) = some { State.reset with respOut := [0x0000000000050000] } ∧
    (nextOf (exec .dxClr bothState)).map (fun t => t.cm) = some cmOne := by decide +kernel

/-- V-CM-1, the packet and one step. -/
theorem test_cmInitSeed :
    nextOf (step { State.reset with
      cmdIn := [0x0000000000000311, 0xFFFFFFFFFFFFFD1A, 0xFFFFFFFFFFFEC6D9, 0x0000000000000000] }) =
      some { cmState with respOut := [0x0000000002110000] } := by decide +kernel

/-- V-ERR-4: a rejected init keeps the engine. -/
theorem test_cmInitSeed_rejected :
    nextOf (exec (.cmInitSeed 0 18446744073709471449 5) cmState) =
      some { cmState with respOut := [0x0000000002110002] } := by decide +kernel

/-- V-CM-4: the adjustment of lane 2 at its wrap. -/
theorem test_cmInitEnt :
    (nextOf (exec (.cmInitEnt defaultBb1 defaultBb2) { State.reset with
      entropyIn := [0, 0, 0, 0, 0xFFFFFFFFFFFFFFFD, 0, 0xFFFFFFFFFFFFFFFD, 0] })).map (fun t => (t.cm, t.entropyIn)) =
      some (⟨true, 0x2360ED051FC65DA44385DF649FCCF646, 1, 0xFFFFFFFFFFFFFFFE, 0, 1, 0,
        0xFFFFFFFFFFFFFD1A, 0xFFFFFFFFFFFEC6D9⟩, []) := by decide +kernel

/-- V-CM-7: the largest carry. -/
theorem test_cmInitEnt_carry :
    (nextOf (exec (.cmInitEnt 0xFFFFFFFFFFFFFFFF 0xFFFFFFFFFFFFFFFF) { State.reset with
      entropyIn := [0, 0, 0, 0, 0xFFFFFFFFFFFFFFFD, 0xFFFFFFFFFFFFFFFE, 0xFFFFFFFFFFFFFFFC, 0xFFFFFFFFFFFFFFFE] })).map
        (fun t => (t.cm.x1, t.cm.c1, t.cm.x2, t.cm.c2)) =
      some (0xFFFFFFFFFFFFFFFE, 0xFFFFFFFFFFFFFFFE, 0xFFFFFFFFFFFFFFFD, 0xFFFFFFFFFFFFFFFE) := by decide +kernel

/-- V-CM-1, row 1. -/
theorem test_cmNextRaw :
    nextOf (exec .cmNextRaw cmState) =
      some { cmState with
        cm := ⟨true, 0xC9F225C4A772DAEDBB2108C4E20024DB, 0x0D88BA3100128A9FF1177150E49903D9, 0x6B0754E3C63CA6C2,
          0x1B39896A51A8744D, 0x4E6C0C086A5598CE, 0x2C829ABE1F44FC70, 0xFFFFFFFFFFFFFD1A, 0xFFFFFFFFFFFEC6D9⟩
        respOut := [0x0000000102130000, 0x84B37248F01FDC44] } := by decide +kernel

/-- V-CM-7, row 1: a product that fills 128 bits. -/
theorem test_cmNextRaw_carry :
    (nextOf (exec .cmNextRaw { State.reset with
      cm := ⟨true, 0x2360ED051FC65DA44385DF649FCCF646, 1, 0xFFFFFFFFFFFFFFFE, 0xFFFFFFFFFFFFFFFE, 0xFFFFFFFFFFFFFFFD,
        0xFFFFFFFFFFFFFFFE, 0xFFFFFFFFFFFFFFFF, 0xFFFFFFFFFFFFFFFF⟩ })).map
        (fun t => (t.cm.x1, t.cm.c1, t.cm.x2, t.cm.c2, t.respOut)) =
      some (0, 0xFFFFFFFFFFFFFFFE, 1, 0xFFFFFFFFFFFFFFFD, [0x0000000102130000, 0xD4FEB4E5A4BCFE0A]) := by decide +kernel

/-- V-CM-1, row 1, unit column. -/
theorem test_cmNextUnit :
    (nextOf (exec .cmNextUnit cmState)).map (fun t => (t.cm.x1, t.respOut)) =
      some (0x6B0754E3C63CA6C2, [0x0000000102140000, 0x3FE0966E491E03FB]) := by decide +kernel

/-- V-F-15, V-F-16, V-F-19, V-F-20, V-F-22. -/
theorem test_f64Top53 :
    f64Top53 0x00000000000007FF = 0 ∧ f64Top53 0x0000000000000800 = 0x3CA0000000000000 ∧
    f64Top53 0x8000000000000000 = 0x3FE0000000000000 ∧ f64Top53 0xFFFFFFFFFFFFFFFF = 0x3FEFFFFFFFFFFFFF ∧
    f64Top53 0x8000000000000800 = 0x3FE0000000000001 := by decide +kernel

/-- V-CM-0: the rotations 0, 32 and 63. -/
theorem test_pcgOut :
    pcgOut 0x80000000000000000000000000000001 = 0x0000000180000000 ∧ pcgOut 0xFFFFFFFFFFFFFFFFFFFFFFFFFFFFFFFF = 0 ∧
    pcgOut 0x0123456789ABCDEFFEDCBA9876543210 = 0xFFFFFFFFFFFFFFFF := by decide +kernel

/-- V-CM-9: the clear, with the DX unit configured. -/
theorem test_cmClr :
    nextOf (exec .cmClr bothState) = some { dxState with respOut := [0x0000000001150000] } := by decide +kernel

/-- V-RD-2: a half of a 128-bit register, and the cursor. -/
theorem test_rdReg :
    nextOf (exec (.rdReg 0x0021) bothState) =
      some { bothState with respOut := [0x0000000103210000, 0xEAECAE570BE95883] } ∧
    nextOf (exec (.rdReg 0x0014) bothState) = some { bothState with respOut := [0x0000000103210000, 4] } := by
  decide +kernel

/-- V-RD-1: a reserved selector is found first, then the missing unit. -/
theorem test_rdReg_errors :
    nextOf (exec (.rdReg 0x0004) State.reset) = some { State.reset with respOut := [0x0000000000210004] } ∧
    nextOf (exec (.rdReg 0x0029) State.reset) = some { State.reset with respOut := [0x0000000000210003] } := by
  decide +kernel

/-- V-RD-2: the last live slot and the first dead one. -/
theorem test_rdSlot :
    nextOf (exec (.rdSlot 4) bothState) = some { bothState with respOut := [0x0000000103220000, 14] } ∧
    nextOf (exec (.rdSlot 5) bothState) = some { bothState with respOut := [0x0000000003220004] } := by decide +kernel

/-- V-RD-1: no unit is found before the index. -/
theorem test_rdSlot_unconfigured :
    nextOf (exec (.rdSlot 0xFFFF) State.reset) = some { State.reset with respOut := [0x0000000000220003] } := by
  decide +kernel

/-- V-ERR-1: rows at the edges of the four checks. -/
theorem test_dxCheck :
    dxCheck 1024 3 101 5 0 = some 3 ∧ dxCheck 1024 3 101 5 5 = some 3 ∧ dxCheck 1024 3 101 1 0 = some 3 ∧
    dxCheck 1024 3 100 5 2 = some 1 ∧ dxCheck 1024 0 0 5 2 = some 1 ∧ dxCheck 1024 3 2147483659 5 2 = some 1 ∧
    dxCheck 1024 3 101 1025 2 = some 2 ∧ dxCheck 1024 101 101 5 2 = some 0 ∧ dxCheck 1024 0 2 2 1 = none ∧
    dxCheck 1024 0 101 1024 1023 = none := by decide +kernel

/-- V-DEC-2: the reserved packet takes its two words with it, and the next word is a header. -/
theorem test_step_framing :
    nextOf (step { State.reset with cmdIn := [0x0206, 0x0501, 3, 3] }) =
      some { State.reset with cmdIn := [3], respOut := [0x0000000000060101] } := by decide +kernel

/-- V-RST-2: reset while two of five entropy words have come. -/
theorem test_step_reset :
    nextOf (step { State.reset with
      rst := true, wait := some ⟨.dxInit 3 101 5 2, [7, 8]⟩, entropyIn := [9], cm := cmOne }) =
      some { State.reset with rst := true } := by decide +kernel

/-- R229: the step waits for room, for the data word too. -/
theorem test_step_noRoom :
    nextOf (step { dxState with cmdIn := [3], respCap := 3, respOut := [1, 2] }) =
      some { dxState with cmdIn := [3], respCap := 3, respOut := [1, 2] } := by decide +kernel

/-- The next step after `withFetchWord` runs the instruction placed. -/
theorem test_withFetchWord :
    nextOf (step (State.reset.withFetchWord 64 0x0000000000020021)) =
      some { State.reset with respOut := [0x0000000100210000, 0x000000007FFFFFFF] } := by decide +kernel

/-! # 4. Witnesses: a concrete state and operands that meet the hypotheses of an obligation -/

theorem test_dxOne_live : dxOne.Live 1024 :=
  ⟨by decide, by decide, by decide, by decide, by decide, by decide, by decide, by decide, ⟨0, by decide, by decide⟩, by decide⟩

theorem test_dxOne_inv : dxOne.Inv 1024 := ⟨by decide, fun _ => test_dxOne_live, fun h => absurd h (by decide)⟩

theorem test_cmOne_live : cmOne.Live :=
  ⟨by decide, by decide, by decide, by decide, by decide,
    fun h => by rcases h with ⟨h, _⟩ | ⟨h, _⟩ <;> exact absurd h (by decide),
    fun h => by rcases h with ⟨h, _⟩ | ⟨h, _⟩ <;> exact absurd h (by decide)⟩

theorem test_cmOne_inv : cmOne.Inv := ⟨fun _ => test_cmOne_live, fun h => absurd h (by decide)⟩

/-- A state with both units configured meets the invariant. -/
theorem test_bothState_inv : bothState.Inv :=
  ⟨by decide, by decide, by decide, test_dxOne_inv, test_cmOne_inv, trivial, fun _ h => nomatch h⟩

/-- A block that waits for entropy, two of five words having come. -/
def waitState : State := { cmState with wait := some ⟨.dxInit 3 101 5 2, [7, 8]⟩ }

theorem test_waitState_inv : waitState.Inv :=
  ⟨by decide, by decide, by decide, ⟨by decide, fun h => absurd h (by decide), fun _ => rfl⟩, test_cmOne_inv, trivial,
    fun w h => by cases h; exact ⟨show dxCheck 1024 3 101 5 2 = none by decide, by decide, by decide, rfl⟩⟩

theorem test_prime_101 : PrimeByDivisors 101 :=
  ⟨by decide, fun d h1 h2 h3 => by interval_cases d <;> revert h3 <;> decide⟩

theorem test_prime_2 : PrimeByDivisors 2 := ⟨by decide, fun d h1 h2 => by omega⟩

/-- `DxInitSeedFillsTheUnit`, `DxInitEntFillsTheUnit`, `StarvedInitWaits`, `SeedingDependsOnItsOperandsAlone`. -/
theorem test_legal : DxParametersLegal State.reset 3 101 5 2 :=
  ⟨by decide, ⟨test_prime_101, by decide⟩, by decide, by decide⟩

/-- The smallest engine, and the longest window with the longest lag. -/
theorem test_legal_bounds : DxParametersLegal State.reset 0 2 2 1 ∧ DxParametersLegal State.reset 0 101 1024 1023 :=
  ⟨⟨by decide, ⟨test_prime_2, by decide⟩, by decide, by decide⟩,
    ⟨by decide, ⟨test_prime_101, by decide⟩, by decide, by decide⟩⟩

theorem test_not_prime_100 : ¬PrimeByDivisors 100 := fun h => h.2 2 (by decide) (by decide) (by decide)

/-- `DxInitChecksItsParametersInOrder`: its four clauses, each met at an edge (V-ERR-1). -/
theorem witness_dxChecks :
    (¬((0 : Nat) < (5 : Word).toNat ∧ (5 : Word).toNat < (5 : Word).toNat)) ∧
    (((0 : Nat) < (2 : Word).toNat ∧ (2 : Word).toNat < (5 : Word).toNat) ∧
      ¬(PrimeByDivisors (100 : Word).toNat ∧ (100 : Word).toNat ≤ 2 ^ 31 - 1)) ∧
    (((0 : Nat) < (2 : Word).toNat ∧ (2 : Word).toNat < (1025 : Word).toNat) ∧
      (PrimeByDivisors (101 : Word).toNat ∧ (101 : Word).toNat ≤ 2 ^ 31 - 1) ∧
      ¬(1 ≤ (1025 : Word).toNat ∧ (1025 : Word).toNat ≤ State.reset.kkMax.toNat)) ∧
    (((0 : Nat) < (2 : Word).toNat ∧ (2 : Word).toNat < (5 : Word).toNat) ∧
      (PrimeByDivisors (101 : Word).toNat ∧ (101 : Word).toNat ≤ 2 ^ 31 - 1) ∧
      (1 ≤ (5 : Word).toNat ∧ (5 : Word).toNat ≤ State.reset.kkMax.toNat) ∧ ¬(101 : Word).toNat < (101 : Word).toNat) :=
  ⟨by decide, ⟨by decide, fun h => test_not_prime_100 h.1⟩, ⟨by decide, ⟨test_prime_101, by decide⟩, by decide⟩,
    ⟨by decide, ⟨test_prime_101, by decide⟩, by decide, by decide⟩⟩

theorem witness_EncodeOfDecodeIsThePacket : decode ⟨0x0000000000140021, []⟩ = .ok (.rdReg 0x0014) := by rfl

/-- Every clause, at packets of V-DEC-1. -/
theorem witness_IllegalPacketsAnswerTheFirstFailedCheck :
    ((Packet.mk 0x0206 [7, 8]).framed = true ∧ (Packet.mk 0x0206 [7, 8]).opListed = false) ∧
    ((Packet.mk 0x0103 [9]).framed = true ∧ (Packet.mk 0x0103 [9]).opListed = true ∧
      (Packet.mk 0x0103 [9]).nargRight = false) ∧
    ((Packet.mk 0x10003 []).framed = true ∧ (Packet.mk 0x10003 []).opListed = true ∧
      (Packet.mk 0x10003 []).nargRight = true ∧ (Packet.mk 0x10003 []).immUsedOrZero = false) ∧
    ((Packet.mk 0x100000003 []).framed = true ∧ (Packet.mk 0x100000003 []).opListed = true ∧
      (Packet.mk 0x100000003 []).nargRight = true ∧ (Packet.mk 0x100000003 []).immUsedOrZero = true ∧
      (Packet.mk 0x100000003 []).rsvZero = false) ∧
    ((Packet.mk 0x140021 []).framed = true ∧ (Packet.mk 0x140021 []).wellFormed = true) := by decide

/-- The edges of every range of R73, and their listed neighbours. -/
theorem witness_ReservedOpcodesAreIllegal :
    (Reserved 0x00 ∧ Reserved 0x06 ∧ Reserved 0x10 ∧ Reserved 0x16 ∧ Reserved 0x20 ∧ Reserved 0x23 ∧ Reserved 0xFF) ∧
    ¬Reserved 0x01 ∧ ¬Reserved 0x05 ∧ ¬Reserved 0x11 ∧ ¬Reserved 0x15 ∧ ¬Reserved 0x21 ∧ ¬Reserved 0x22 ∧
    Reserved ((0x00000000000000FF : Word).toNat % 2 ^ 8) := by
  unfold Reserved
  exact ⟨by decide, by decide, by decide, by decide, by decide, by decide, by decide, by decide⟩

/-- A whole packet, one short of a word, and one whose first words were taken before; exactly two words of room. -/
theorem witness_FramingTakesTheHeaderAndItsOperands :
    let s : State := { State.reset with cmdIn := [0x0212, 2, 3, 0x13], respCap := 2 }
    let u : State := { State.reset with cmdIn := [3], parser := .operands 0x0212 [2], respCap := 2 }
    (s.rst = false ∧ s.wait = none ∧ s.respOut.length + 2 ≤ s.respCap ∧ s.parser = .header ∧
      s.cmdIn = 0x0212 :: [2, 3, 0x13] ∧ nargNat 0x0212 ≤ [2, 3, 0x13].length) ∧
    (u.rst = false ∧ u.wait = none ∧ u.respOut.length + 2 ≤ u.respCap ∧ u.parser = .operands 0x0212 [2] ∧
      [2, 3] = [2] ++ u.cmdIn ∧ nargNat 0x0212 ≤ [2, 3].length) ∧ [2].length < nargNat 0x0212 := by decide

theorem witness_PacketsMayArriveInPieces :
    let s : State := { State.reset with cmdIn := [0x0501, 3, 101] }
    Idle s ∧ s.respOut.length + 2 ≤ s.respCap ∧ s.cmdIn = 0x0501 :: [3, 101] ∧ [3, 101].length < nargNat 0x0501 ∧
      nargNat 0x0501 ≤ ([3, 101] ++ [5, 2, 0]).length := by unfold Idle; decide

/-- Room, no room, and a fault (in a state no run reaches: a configured unit in a block too small for it). -/
theorem witness_StepRunsTheDecodedCommand :
    (Idle { bothState with cmdIn := [0x13] } ∧
      packetOfWords ({ bothState with cmdIn := [0x13] } : State).cmdIn = some (⟨0x13, []⟩, []) ∧
      decode ⟨0x13, []⟩ = .ok .cmNextRaw) ∧
    ((exec .cmNextRaw bothState = .next ((bothState.setCm (cmAdvance cmOne)).respond 0x13 [cmOutput (cmAdvance cmOne)])) ∧
      bothState.respOut.length + 1 ≤ bothState.respCap) ∧
    (exec .dxClr { dxState with respCap := 2, respOut := [1, 2] } =
      .next ((State.setDx { dxState with respCap := 2, respOut := [1, 2] } DxUnit.cleared).respond 0x05 []) ∧
      2 < [1, 2].length + 1) ∧
    exec .dxNextRaw { dxState with kkMax := 2 } = .fault .slotAbsent :=
  ⟨⟨⟨rfl, rfl, rfl⟩, rfl, rfl⟩, ⟨rfl, by decide⟩, ⟨rfl, by decide⟩, rfl⟩

/-- An error, an answer and a wait. -/
theorem witness_EveryPacketGetsOneResponse :
    (State.reset.wait = none ∧ runPacket ⟨3, []⟩ State.reset = .next (State.reset.raise 0x03 .notConfigured 0)) ∧
    runPacket ⟨5, []⟩ dxState = .next ((dxState.setDx DxUnit.cleared).respond 0x05 []) ∧
    runPacket ⟨0x0212, [1, 1]⟩ State.reset = .next (State.reset.awaitEntropy (.cmInit 1 1)) := ⟨⟨rfl, rfl⟩, rfl, rfl⟩

/-- Both clauses: an error that was answered, and a command that has not ended. -/
theorem witness_ErrorsWriteNothing :
    (runPacket ⟨3, []⟩ State.reset = .next (State.reset.raise 0x03 .notConfigured 0) ∧
      Responds State.reset (State.reset.raise 0x03 .notConfigured 0) 3 0 0x03 []) ∧
    runPacket ⟨0x0212, [1, 1]⟩ State.reset = .next (State.reset.awaitEntropy (.cmInit 1 1)) ∧
    (State.reset.awaitEntropy (.cmInit 1 1)).respOut = State.reset.respOut :=
  ⟨⟨rfl, [0x0000000000030003], rfl, by decide⟩, rfl, rfl⟩

/-- Its clauses: an error, a success, reset, and a packet that is answered. -/
theorem witness_FlagsHaveTheWritersOfR22 :
    (exec .dxNextRaw State.reset = .next (State.reset.raise 0x03 .notConfigured 0) ∧
      Responds State.reset (State.reset.raise 0x03 .notConfigured 0) 3 0 0x03 []) ∧
    (exec .dxClr dxState = .next ((dxState.setDx DxUnit.cleared).respond 0x05 []) ∧
      Responds dxState ((dxState.setDx DxUnit.cleared).respond 0x05 []) 0 0 0x05 []) ∧
    (({ dxState with rst := true } : State).rst = true ∧
      step { dxState with rst := true } = .next { State.reset with rst := true }) ∧
    runPacket ⟨5, []⟩ dxState = .next ((dxState.setDx DxUnit.cleared).respond 0x05 []) :=
  ⟨⟨rfl, [0x0000000000030003], rfl, by decide⟩, ⟨rfl, [0x0000000000050000], rfl, by decide⟩, ⟨rfl, rfl⟩, rfl⟩

/-- A command that writes, and one that ends in an error. -/
theorem witness_CommandsWriteOnlyWhatR37Lists :
    exec .dxClr bothState = .next ((bothState.setDx DxUnit.cleared).respond 0x05 []) ∧
    (exec .dxNextRaw State.reset = .next (State.reset.raise 0x03 .notConfigured 0) ∧
      Responds State.reset (State.reset.raise 0x03 .notConfigured 0) 3 0 0x03 []) :=
  ⟨rfl, rfl, [0x0000000000030003], rfl, by decide⟩

/-- The last word of `SeedExpansionIsSplitMix` and of `SeedwordsComeFromEvenlySpacedStates`. -/
theorem witness_SeedwordsComeFromEvenlySpacedStates :
    4 < 5 ∧ (seedwords 0 5)[4]? = some 0x1B39896A51A8749B := by decide +kernel

/-- Exactly as many words as it takes. -/
theorem witness_DxInitEntFillsTheUnit :
    DxParametersLegal { State.reset with entropyIn := [0, 101, 202, 0, 0] } 3 101 5 2 ∧
      (5 : Word).toNat ≤ [0, 101, 202, 0, 0].length := ⟨test_legal, by decide⟩

/-- One word short, for both commands. -/
theorem witness_StarvedInitWaits :
    DxParametersLegal { State.reset with entropyIn := [1, 2, 3, 4] } 3 101 5 2 ∧
      [1, 2, 3, 4].length < (5 : Word).toNat ∧ (1 : Word) ≠ 0 ∧ [1, 2, 3, 4, 5, 6, 7].length < 8 :=
  ⟨test_legal, by decide, by decide, by decide⟩

/-- One word short, and with no new word at all. -/
theorem witness_WaitingBlockIsStuckUntilWordsCome :
    (waitState.Inv ∧ waitState.rst = false ∧ waitState.wait = some ⟨.dxInit 3 101 5 2, [7, 8]⟩ ∧
      [(7 : Word), 8].length + waitState.entropyIn.length < (EntropyCmd.dxInit 3 101 5 2).needs ∧ waitState.entropyIn = []) ∧
    [(7 : Word), 8].length + [(1 : Word), 2].length < (EntropyCmd.dxInit 3 101 5 2).needs :=
  ⟨⟨test_waitState_inv, rfl, rfl, by decide, rfl⟩, by decide⟩

theorem witness_LateEntropyGivesTheSameResult :
    State.reset.rst = false ∧ State.reset.wait = none ∧
      exec (.cmInitEnt 1 1) State.reset = .next (State.reset.awaitEntropy (.cmInit 1 1)) ∧
      (State.reset.awaitEntropy (.cmInit 1 1)).wait ≠ none := ⟨rfl, rfl, rfl, nofun⟩

/-- The smallest engine of V-ERR-1, with lag 1 and multiplier 0. -/
def smallState : State := { State.reset with dx := ⟨true, 0, 2, 2, 1, 1, [(0, 1)]⟩ }

theorem test_smallState_live : smallState.dx.Live smallState.kkMax.toNat :=
  ⟨by decide, by decide, by decide, by decide, by decide, by decide, by decide, by decide, ⟨0, by decide, by decide⟩, by decide⟩

/-- `DxNextRawMakesTheStep` with its last two clauses, `DxNextUnitMakesTheSameStep`, the second clause of
`DxUnitOutputsAreMonotoneAndBelowOne`. -/
theorem witness_DxNextRawMakesTheStep :
    (dxState.dx.v = true ∧ dxState.dx.Live dxState.kkMax.toNat) ∧
    (smallState.dx.v = true ∧ smallState.dx.Live smallState.kkMax.toNat ∧ smallState.dx.ss.toNat = 1 ∧
      smallState.dx.bb.toNat = 0) := ⟨⟨rfl, test_dxOne_live⟩, rfl, test_smallState_live, rfl, rfl⟩

/-- Reset, for both clauses. -/
theorem witness_UnconfiguredUnitsAnswerNotConfigured : State.reset.dx.v = false ∧ State.reset.cm.v = false := ⟨rfl, rfl⟩

theorem witness_DxStepShiftsTheLogicalWindow :
    dxState.dx.v = true ∧ dxState.dx.Live dxState.kkMax.toNat ∧ (nextOf (exec .dxNextRaw dxState)).isSome = true :=
  ⟨rfl, test_dxOne_live, by decide +kernel⟩

/-- V-DX-6's engine, and the sequence 1, 0, 1, 1, 0, 1, ... it continues. -/
theorem witness_DxOutputsFollowTheRecurrence :
    let s : State := { State.reset with dx := ⟨true, 1, 2, 2, 1, 1, [(0, 1)]⟩ }
    let x : Nat → Nat := fun n => if n % 3 = 1 then 0 else 1
    s.dx.v = true ∧ s.dx.Live s.kkMax.toNat ∧
      (∀ j, 1 ≤ j → j ≤ s.dx.kk.toNat → x (s.dx.kk.toNat - j) = s.dx.logical j) ∧
      ∀ n, s.dx.kk.toNat ≤ n → x n = (s.dx.bb.toNat * x (n - s.dx.ss.toNat) + x (n - s.dx.kk.toNat)) % s.dx.pp.toNat := by
  refine ⟨rfl, ⟨by decide, by decide, by decide, by decide, by decide, by decide, by decide, by decide,
    ⟨0, by decide, by decide⟩, by decide⟩, fun j h1 h2 => ?_, fun n hn => ?_⟩
  · have h : j = 1 ∨ j = 2 := by
      have h3 : j ≤ 2 := h2
      omega
    rcases h with rfl | rfl <;> decide
  · show (if n % 3 = 1 then 0 else 1) =
      (1 * (if (n - 1) % 3 = 1 then 0 else 1) + (if (n - 2) % 3 = 1 then 0 else 1)) % 2
    have h : 2 ≤ n := hn
    split <;> split <;> split <;> omega

/-- The smallest and the largest quotient of R108. -/
theorem witness_DxUnitMappingRoundsToNearest :
    (0 < 1 ∧ 1 < 2147483647 ∧ 2147483647 ≤ 2 ^ 31 - 1) ∧ 0 < 2147483646 ∧ 2147483646 < 2147483647 := by decide

theorem witness_DxUnitOutputsAreMonotoneAndBelowOne : 1 ≤ 2 ∧ 2 < 2147483647 ∧ 2147483647 ≤ 2 ^ 31 - 1 := by decide

/-- Its clauses, at 2^11 - 1, 2^11 and 2^64 - 1. -/
theorem witness_CmUnitMappingIsExact :
    (2047 : Word).toNat < 2 ^ 11 ∧ 2 ^ 11 ≤ (2048 : Word).toNat ∧ (0xFFFFFFFFFFFFFFFF : Word).toNat = 2 ^ 64 - 1 := by decide

/-- Both clauses (V-ERR-2). -/
theorem witness_CmInitChecksItsMultipliersInOrder : (0 : Word) = 0 ∧ (5 : Word) ≠ 0 := by decide

/-- `CmInitSeedFillsTheUnit`, `LanesNeverStartAlikeOrDegenerate`: the smallest and the largest multiplier. -/
theorem witness_CmInitSeedFillsTheUnit : (1 : Word) ≠ 0 ∧ (0xFFFFFFFFFFFFFFFF : Word) ≠ 0 := by decide

theorem witness_CmInitEntFillsTheUnit : (1 : Word) ≠ 0 ∧ 8 ≤ [(0 : Word), 0, 0, 0, 0, 0, 0, 0].length := by decide

/-- `CmNextRawMakesTheStep`, `CmNextUnitMakesTheSameStep`. -/
theorem witness_CmNextRawMakesTheStep : cmState.cm.v = true := rfl

theorem witness_LaneStepIsAPermutation : (4 : Word).toNat < (5 : Word).toNat ∧ (0 : Word).toNat < (5 : Word).toNat := by decide

/-- A register that needs nothing, one of each unit, one of each unit without it, and the reserved neighbours of the map. -/
theorem witness_RdRegFollowsTheSelectorMap :
    ((0x0003, 0, 3) ∈ selectorMap bothState ∧ needHolds bothState 0 = true) ∧
    ((0x0014, 1, 4) ∈ selectorMap bothState ∧ needHolds bothState 1 = true) ∧
    ((0x0029, 2, 0xFFFFFFFFFFFEC6D9) ∈ selectorMap bothState ∧ needHolds bothState 2 = true) ∧
    ((0x0010, 1, 0) ∈ selectorMap State.reset ∧ needHolds State.reset 1 = false) ∧
    ((0x0020, 2, 0) ∈ selectorMap State.reset ∧ needHolds State.reset 2 = false) ∧
    ∀ sel ∈ [0x0004, 0x000F, 0x0015, 0x001F, 0x002A, 0xFFFF], sel ∉ (selectorMap State.reset).map Prod.fst := by
  decide +kernel

/-- No unit; the first dead slot; the last live one. -/
theorem witness_RdSlotReadsTheLiveSlots :
    State.reset.dx.kk.toNat ≤ State.reset.kkMax.toNat ∧ State.reset.dx.v = false ∧
    dxState.dx.kk.toNat ≤ dxState.kkMax.toNat ∧ dxState.dx.v = true ∧ dxState.dx.kk.toNat ≤ (5 : Index).toNat ∧
    (4 : Index).toNat < dxState.dx.kk.toNat := by decide

theorem witness_ReadsHaveNoSideEffect :
    isRead (.rdSlot 4) = true ∧ (execTimes (.rdSlot 4) 2 dxState).isSome = true ∧
      (nextOf (exec (.rdSlot 4) dxState)).isSome = true := by decide +kernel

theorem witness_StepKeepsTheInvariant : bothState.Inv ∧ step bothState = .next bothState ∧
    (nextOf (step { bothState with cmdIn := [3] })).isSome = true := ⟨test_bothState_inv, rfl, by decide +kernel⟩

/-- The least configuration of R6 and R78. -/
theorem witness_ResetMeetsTheInvariant : 2 ≤ (2 : Index).toNat ∧ 2 ≤ 2 := by decide

theorem witness_TheOutsideKeepsTheInvariant :
    ({ bothState with respOut := [1] } : State).Inv ∧
      State.takeResponse { bothState with respOut := [1] } = some (1, bothState) :=
  ⟨⟨by decide, by decide, by decide, test_dxOne_inv, test_cmOne_inv, trivial, fun _ h => nomatch h⟩, rfl⟩

/-- Reset, a block that waits for entropy, and a block in which both units are configured. -/
theorem witness_NoReachableStepStops :
    bothState.Inv ∧ Reachable State.reset ∧ ∃ t, Reachable t ∧ t.wait = some ⟨.cmInit 1 1, []⟩ := by
  have h0 : Reachable State.reset := .reset _ _ (by decide) (by decide)
  have h1 : Reachable (((State.reset.sendWord 0x0212).sendWord 1).sendWord 1) := ((h0.send _).send _).send _
  exact ⟨test_bothState_inv, h0, _, .step h1 rfl, rfl⟩

/-- Two blocks that agree on one unit and differ in the other, for both units; two whose `CM.INIT.ENT` waits; and a read. -/
theorem witness_UnitsAreIndependent :
    (ofDx .dxNextRaw = true ∧ dxState.dx = bothState.dx ∧ dxState.kkMax = bothState.kkMax ∧
      dxState.entropyIn = bothState.entropyIn ∧ (nextOf (exec .dxNextRaw dxState)).isSome = true ∧
      dxState.cm ≠ bothState.cm) ∧
    (ofCm .cmNextRaw = true ∧ cmState.cm = bothState.cm ∧ cmState.entropyIn = bothState.entropyIn ∧
      (nextOf (exec .cmNextRaw cmState)).isSome = true ∧ cmState.dx ≠ bothState.dx) ∧
    (ofCm (.cmInitEnt 1 1) = true ∧
      nextOf (exec (.cmInitEnt 1 1) cmState) = some (cmState.awaitEntropy (.cmInit 1 1))) ∧
    isRead (.rdReg 0) = true ∧ (nextOf (exec (.rdReg 0) bothState)).isSome = true := by decide +kernel

theorem witness_ResetClearsTheBlock : ({ waitState with rst := true } : State).rst = true := rfl

/-- A full queue of the least length, and the same queue drained. -/
theorem witness_FullResponseQueueOnlyDelaysTheCommand :
    let s : State := { bothState with cmdIn := [0x13], respCap := 2, respOut := [1, 2] }
    s.Inv ∧ Idle s ∧ packetOfWords s.cmdIn = some (⟨0x13, []⟩, []) ∧ s.respOut.length = s.respCap ∧
      ([] : List Word).length + 2 ≤ s.respCap :=
  ⟨⟨by decide, by decide, by decide, test_dxOne_inv, test_cmOne_inv, trivial, fun _ h => nomatch h⟩, ⟨rfl, rfl, rfl⟩, rfl, rfl,
    by decide⟩

theorem witness_NoWordIsLostOrReordered :
    bothState.Inv ∧ bothState.rst = false ∧ step bothState = .next bothState := ⟨test_bothState_inv, rfl, rfl⟩

theorem witness_ConstantsReadTheSameForever : step State.reset = .next State.reset := rfl

theorem witness_LittleEndianBytesCarryTheWords : 7 < 8 ∧ ((octetsOfWord 0x0123456789ABCDEF).getD 7 0) = 0x01 := by decide

/-- Both commands, in two states that differ. -/
theorem witness_SeedingDependsOnItsOperandsAlone :
    DxParametersLegal State.reset 0 2 2 1 ∧ DxParametersLegal bothState 0 2 2 1 ∧
    (nextOf (exec (.dxInitSeed 0 2 2 1 7) State.reset)).isSome = true ∧
    (nextOf (exec (.dxInitSeed 0 2 2 1 7) bothState)).isSome = true ∧ (1 : Word) ≠ 0 ∧
    (nextOf (exec (.cmInitSeed 1 1 7) State.reset)).isSome = true ∧
    (nextOf (exec (.cmInitSeed 1 1 7) bothState)).isSome = true :=
  ⟨test_legal_bounds.1, ⟨by decide, ⟨test_prime_2, by decide⟩, by decide, by decide⟩, by decide +kernel, by decide +kernel,
    by decide, by decide +kernel, by decide +kernel⟩

end Sys2Proof.Tests
end

section
/-!
PROOFS. The primality test of `dx_check` (`00_scope.md` R8): the model's trial division and the definition of R8 are both
Mathlib's `Nat.Prime`, the first by its divisors up to the square root, the second by all its divisors.
-/

namespace Sys2Proof.Proofs

open Sys2Proof.Machine Sys2Proof.Claims

/-- Trial division from 2 up to the square root decides primality: the fuel `n` reaches past `n` itself. -/
theorem isPrime_iff_prime {n : Nat} : isPrime n = true ↔ n.Prime := by
  rw [isPrime, Bool.and_eq_true, decide_eq_true_iff, noDivisorFrom_iff (Nat.le_refl 2) (by omega), Nat.prime_def_le_sqrt]
  simp only [Nat.le_sqrt]

theorem primeByDivisors_iff_prime {n : Nat} : PrimeByDivisors n ↔ n.Prime := Nat.prime_def_lt'.symm

/-- Settles O16: the test and the definition both say that `n` is prime. -/
theorem primalityTestIsExact : Obligations.PrimalityTestIsExact :=
  fun _ => isPrime_iff_prime.trans primeByDivisors_iff_prime.symm

end Sys2Proof.Proofs
end

section
/-!
PROOFS. The lane step of the CM unit (`41_combined_engine.md` R151) as arithmetic in base `bb`, and what the seeding and the
step of the unit keep (`10_state.md` R32).
-/

namespace Sys2Proof.Machine

/-- `t` of a lane step is its result read as one number of two words. -/
theorem laneHigh_mul_add_laneLow (bb x c : Word) :
    (laneHigh bb x c).toNat * 2 ^ 64 + (laneLow bb x c).toNat = bb.toNat * x.toNat + c.toNat := by
  rw [laneHigh_toNat, laneLow_toNat]
  omega

/-- A number is written in one way as a multiple of `b` and a rest below `b`. -/
theorem eq_and_eq_of_mul_add_eq {b x c y e : Nat} (hc : c < b) (he : e < b) (h : b * x + c = b * y + e) :
    x = y ∧ c = e := by
  have hdiv := congrArg (· / b) h
  simp only [Nat.mul_add_div (Nat.zero_lt_of_lt hc), Nat.div_eq_of_lt hc, Nat.div_eq_of_lt he, Nat.add_zero] at hdiv
  subst hdiv
  exact ⟨rfl, Nat.add_left_cancel h⟩

/-- With the carry below the multiplier, `t` stays below `bb * 2^64` (R32 (c)). -/
theorem laneHigh_lt {bb x c : Word} (hc : c.toNat < bb.toNat) : (laneHigh bb x c).toNat < bb.toNat := by
  have hx : bb.toNat * (x.toNat + 1) ≤ bb.toNat * 2 ^ 64 := Nat.mul_le_mul_left _ x.isLt
  rw [laneHigh_toNat, Nat.div_lt_iff_lt_mul (by decide)]
  rw [Nat.mul_add_one] at hx
  omega

/-- Two legal lane states never step to the same state. -/
theorem lane_injective {bb x c y e : Word} (hc : c.toNat < bb.toNat) (he : e.toNat < bb.toNat)
    (hlow : laneLow bb x c = laneLow bb y e) (hhigh : laneHigh bb x c = laneHigh bb y e) : x = y ∧ c = e := by
  have h : bb.toNat * x.toNat + c.toNat = bb.toNat * y.toNat + e.toNat := by
    rw [← laneHigh_mul_add_laneLow, hlow, hhigh, laneHigh_mul_add_laneLow]
  exact (eq_and_eq_of_mul_add_eq hc he h).imp BitVec.eq_of_toNat_eq BitVec.eq_of_toNat_eq

/-- The lane state that steps to `(x, c)`: `c * 2^64 + x` divided by the multiplier, quotient and rest. -/
theorem lane_surjective {bb x c : Word} (hc : c.toNat < bb.toNat) :
    ∃ z g : Word, g.toNat < bb.toNat ∧ laneLow bb z g = x ∧ laneHigh bb z g = c := by
  have hx := x.isLt
  have hbb := bb.isLt
  have hrest : (c.toNat * 2 ^ 64 + x.toNat) % bb.toNat < bb.toNat := Nat.mod_lt _ (Nat.zero_lt_of_lt hc)
  have hquot : (c.toNat * 2 ^ 64 + x.toNat) / bb.toNat < 2 ^ 64 := by
    rw [Nat.div_lt_iff_lt_mul (Nat.zero_lt_of_lt hc)]
    omega
  have ht := Nat.div_add_mod (c.toNat * 2 ^ 64 + x.toNat) bb.toNat
  generalize (c.toNat * 2 ^ 64 + x.toNat) / bb.toNat = z at hquot ht
  generalize (c.toNat * 2 ^ 64 + x.toNat) % bb.toNat = g at hrest ht
  refine ⟨BitVec.ofNat 64 z, BitVec.ofNat 64 g, ?_, BitVec.eq_of_toNat_eq ?_, BitVec.eq_of_toNat_eq ?_⟩ <;>
    simp only [laneLow_toNat, laneHigh_toNat, BitVec.toNat_ofNat, Nat.mod_eq_of_lt hquot,
      Nat.mod_eq_of_lt (Nat.lt_trans hrest hbb), ht] <;>
    omega

/-- The two states that R32 (d) shuts out step to themselves. -/
theorem LaneFixed.step_eq {bb x c : Word} (hc : c.toNat < bb.toNat) (h : LaneFixed bb x c) :
    laneLow bb x c = x ∧ laneHigh bb x c = c := by
  have ht : 2 ^ 64 * (laneHigh bb x c).toNat + (laneLow bb x c).toNat = 2 ^ 64 * c.toNat + x.toNat := by
    rw [Nat.mul_comm, laneHigh_mul_add_laneLow]
    rcases h with ⟨rfl, rfl⟩ | ⟨hx, hc'⟩
    · simp
    · rw [hx, hc']
      omega
  exact ((eq_and_eq_of_mul_add_eq (laneLow bb x c).isLt x.isLt ht).imp BitVec.eq_of_toNat_eq BitVec.eq_of_toNat_eq).symm

/-- The step never enters a fixed point from outside: it is a permutation, and the fixed point comes from itself (R32 (d)). -/
theorem not_laneFixed_step {bb x c : Word} (hc : c.toNat < bb.toNat) (h : ¬LaneFixed bb x c) :
    ¬LaneFixed bb (laneLow bb x c) (laneHigh bb x c) := by
  intro hfix
  obtain ⟨hlow, hhigh⟩ := LaneFixed.step_eq (laneHigh_lt hc) hfix
  obtain ⟨hx, hcx⟩ := lane_injective (laneHigh_lt hc) hc hlow hhigh
  rw [hx, hcx] at hfix
  exact h hfix

@[simp] theorem cmAdvance_v (c : CmUnit) : (cmAdvance c).v = c.v := by rw [cmAdvance]
@[simp] theorem cmAdvance_pcgInc (c : CmUnit) : (cmAdvance c).pcgInc = c.pcgInc := by rw [cmAdvance]
@[simp] theorem cmAdvance_bb1 (c : CmUnit) : (cmAdvance c).bb1 = c.bb1 := by rw [cmAdvance]
@[simp] theorem cmAdvance_bb2 (c : CmUnit) : (cmAdvance c).bb2 = c.bb2 := by rw [cmAdvance]
@[simp] theorem cmAdvance_x1 (c : CmUnit) : (cmAdvance c).x1 = laneLow c.bb1 c.x1 c.c1 := by rw [cmAdvance]
@[simp] theorem cmAdvance_c1 (c : CmUnit) : (cmAdvance c).c1 = laneHigh c.bb1 c.x1 c.c1 := by rw [cmAdvance]
@[simp] theorem cmAdvance_x2 (c : CmUnit) : (cmAdvance c).x2 = laneLow c.bb2 c.x2 c.c2 := by rw [cmAdvance]
@[simp] theorem cmAdvance_c2 (c : CmUnit) : (cmAdvance c).c2 = laneHigh c.bb2 c.x2 c.c2 := by rw [cmAdvance]

/-- The step of the CM unit keeps R32. -/
theorem cmAdvance_live {c : CmUnit} (h : c.Live) : (cmAdvance c).Live := by
  constructor
  · rw [cmAdvance_bb1]; exact h.bb1_ne
  · rw [cmAdvance_bb2]; exact h.bb2_ne
  · rw [cmAdvance_pcgInc]; exact h.inc_odd
  · rw [cmAdvance_c1, cmAdvance_bb1]; exact laneHigh_lt h.c1_lt
  · rw [cmAdvance_c2, cmAdvance_bb2]; exact laneHigh_lt h.c2_lt
  · rw [cmAdvance_bb1, cmAdvance_x1, cmAdvance_c1]; exact not_laneFixed_step h.c1_lt h.lane1
  · rw [cmAdvance_bb2, cmAdvance_x2, cmAdvance_c2]; exact not_laneFixed_step h.c2_lt h.lane2

/-- A low word in `[1, 2^64 - 2]` belongs to no fixed point. -/
theorem not_laneFixed_of_range {bb x c : Word} (h : 1 ≤ x.toNat ∧ x.toNat ≤ 2 ^ 64 - 2) : ¬LaneFixed bb x c := by
  rintro (⟨rfl, -⟩ | ⟨hx, -⟩)
  · exact absurd h.1 (by decide)
  · omega

/-- Where a lane starts (R147). -/
theorem laneStart_range (w : Word) : 1 ≤ (laneStart w).toNat ∧ (laneStart w).toNat ≤ 2 ^ 64 - 2 := by
  rw [laneStart, BitVec.toNat_ofNat]
  omega

/-- Moved apart from lane 1, lane 2 stays in its range (R147). -/
theorem laneApart_range {x1 c1 x2 c2 : Word} (h : 1 ≤ x2.toNat ∧ x2.toNat ≤ 2 ^ 64 - 2) :
    1 ≤ (laneApart x1 c1 x2 c2).toNat ∧ (laneApart x1 c1 x2 c2).toNat ≤ 2 ^ 64 - 2 := by
  unfold laneApart
  split
  · split
    · rw [BitVec.toNat_add, show (1 : Word).toNat = 1 from rfl]
      omega
    · decide
  · exact h

/-- The carry a lane starts with is legal (R147). -/
theorem laneCarry_lt (w : Word) {bb : Word} (hbb : bb ≠ 0) : (laneCarry w bb).toNat < bb.toNat := by
  have hpos : 0 < bb.toNat := Nat.pos_of_ne_zero fun e => hbb (BitVec.eq_of_toNat_eq e)
  rw [laneCarry, BitVec.toNat_ofNat]
  exact Nat.lt_of_le_of_lt (Nat.mod_le _ _) (Nat.mod_lt _ hpos)

/-- The increment of `pcg_seed` is odd (R144). -/
theorem pcgSeedInc_odd (w2 w3 : Word) : (pcgSeedInc w2 w3).toNat % 2 = 1 := by
  rw [pcgSeedInc_toNat, Nat.mod_mod_of_dvd _ (by decide), Nat.or_mod_two_eq_one]
  exact .inr rfl

/-- A seeded CM unit meets R32, whatever its source words. -/
theorem cmSeeded_live {bb1 bb2 : Word} (h1 : bb1 ≠ 0) (h2 : bb2 ≠ 0) (ws : List Word) : (cmSeeded bb1 bb2 ws).Live where
  bb1_ne := h1
  bb2_ne := h2
  inc_odd := pcgSeedInc_odd _ _
  c1_lt := laneCarry_lt _ h1
  c2_lt := laneCarry_lt _ h2
  lane1 := not_laneFixed_of_range (laneStart_range _)
  lane2 := not_laneFixed_of_range (laneApart_range (laneStart_range _))

/-! The invariant of the unit. -/

theorem CmUnit.cleared_inv : CmUnit.cleared.Inv := ⟨fun h => absurd h (by decide), fun _ => rfl⟩

theorem cmSeeded_inv {bb1 bb2 : Word} (h : cmCheck bb1.toNat bb2.toNat = none) (ws : List Word) :
    (cmSeeded bb1 bb2 ws).Inv :=
  ⟨fun _ => cmSeeded_live (fun e => (cmCheck_eq_none.1 h).1 (congrArg BitVec.toNat e))
    (fun e => (cmCheck_eq_none.1 h).2 (congrArg BitVec.toNat e)) ws, fun h => absurd h (by simp [cmSeeded, cmCommit])⟩

theorem cmAdvance_inv {c : CmUnit} (hv : c.v = true) (h : c.Inv) : (cmAdvance c).Inv :=
  ⟨fun _ => cmAdvance_live (h.live hv), fun hf => absurd hf (by simp [hv])⟩

end Sys2Proof.Machine

namespace Sys2Proof.Proofs

open Sys2Proof.Machine

/-- Settles O39: a legal lane state is the quotient and the rest of one number by `bb`, its step the quotient and the rest of
the same number by `2^64`. -/
theorem laneStepIsAPermutation : Obligations.LaneStepIsAPermutation :=
  fun _ _ _ _ _ hc he => ⟨laneHigh_lt hc, lane_injective hc he, lane_surjective hc⟩

end Sys2Proof.Proofs
end

section
/-!
PROOFS. The DX unit: what seeding and a step keep (`10_state.md` R28), and the step in the logical view (R27).
-/

namespace Sys2Proof.Machine

open Sys2Proof.Claims

/-- The unit a step of the recurrence leaves (R107). -/
def dxAdvance (d : DxUnit) : DxUnit :=
  { d with
    slots := d.slots.write (oldestNat d) (BitVec.ofNat 31 (dxValueNat d))
    cur := BitVec.ofNat 16 (oldestNat d) }

@[simp] theorem dxAdvance_v (d : DxUnit) : (dxAdvance d).v = d.v := rfl
@[simp] theorem dxAdvance_bb (d : DxUnit) : (dxAdvance d).bb = d.bb := rfl
@[simp] theorem dxAdvance_pp (d : DxUnit) : (dxAdvance d).pp = d.pp := rfl
@[simp] theorem dxAdvance_kk (d : DxUnit) : (dxAdvance d).kk = d.kk := rfl
@[simp] theorem dxAdvance_ss (d : DxUnit) : (dxAdvance d).ss = d.ss := rfl

theorem dxAdvance_read_oldest (d : DxUnit) :
    (dxAdvance d).slots.read (oldestNat d) = BitVec.ofNat 31 (dxValueNat d) := Memory.read_write_same _ _ _

theorem dxAdvance_read_other {d : DxUnit} {j : Nat} (h : j ≠ oldestNat d) :
    (dxAdvance d).slots.read j = d.slots.read j := Memory.read_write_other _ _ h

/-- `dx_step` is `dxAdvance`, wherever its two slots lie in the slot space. -/
theorem dxStep_eq_some_iff {s s' : State} {v : Nat} :
    dxStep s = some (v, s') ↔ laggedNat s.dx < s.kkMax.toNat ∧ oldestNat s.dx < s.kkMax.toNat ∧
      v = dxValueNat s.dx ∧ s' = s.setDx (dxAdvance s.dx) := by
  constructor
  · intro h
    obtain ⟨hl, ho, rfl, rfl⟩ := dxStep_eq_some h
    exact ⟨hl, ho, rfl, rfl⟩
  · rintro ⟨hl, ho, rfl, rfl⟩
    exact dxStep_of_lt hl ho

section Live

variable {K : Nat} {d : DxUnit}

/-! The two slots of a step, in the spelling of the statements. -/

theorem DxUnit.Live.oldestNat_lt (h : d.Live K) : oldestNat d < d.kk.toNat := h.oldest_lt

theorem DxUnit.Live.laggedNat_lt (h : d.Live K) : laggedNat d < d.kk.toNat := h.lagged_lt

theorem DxUnit.Live.laggedNat_ne_oldestNat (h : d.Live K) : laggedNat d ≠ oldestNat d := h.lagged_ne_oldest

theorem DxUnit.Live.value_lt (h : d.Live K) : dxValueNat d < d.pp.toNat :=
  Nat.mod_lt _ (Nat.zero_lt_of_lt (isPrime_two_le h.pp_prime))

/-- A value of the recurrence fits its slot. -/
theorem DxUnit.Live.slot_toNat (h : d.Live K) : (BitVec.ofNat 31 (dxValueNat d)).toNat = dxValueNat d := by
  rw [BitVec.toNat_ofNat, Nat.mod_eq_of_lt (Nat.lt_trans h.value_lt d.pp.isLt)]

theorem DxUnit.Live.advance_cur_toNat (h : d.Live K) : (dxAdvance d).cur.toNat = oldestNat d := by
  rw [dxAdvance, BitVec.toNat_ofNat, Nat.mod_eq_of_lt (Nat.lt_trans h.oldestNat_lt d.kk.isLt)]

/-- The step leaves a live slot that is not 0 (R28 (d)): if it writes 0 over the only one, then the lagged slot, which it
leaves alone, was not 0. -/
theorem DxUnit.Live.advance_slot_nonzero (h : d.Live K) :
    ∃ i, i < d.kk.toNat ∧ (dxAdvance d).slots.read i ≠ 0 := by
  obtain ⟨i, hi, hne⟩ := h.slot_nonzero
  by_cases hio : i = oldestNat d
  · by_cases hlag : d.slots.read (laggedNat d) = 0
    · refine ⟨oldestNat d, h.oldestNat_lt, fun h0 => hne ?_⟩
      rw [dxAdvance_read_oldest] at h0
      have hv : dxValueNat d = 0 := by rw [← h.slot_toNat, h0]; rfl
      rw [dxValueNat, hlag, show (0 : Slot).toNat = 0 from rfl, Nat.mul_zero, Nat.zero_add,
        Nat.mod_eq_of_lt (h.slot_lt _ h.oldestNat_lt)] at hv
      rw [hio]
      exact BitVec.eq_of_toNat_eq hv
    · exact ⟨laggedNat d, h.laggedNat_lt, by rwa [dxAdvance_read_other h.laggedNat_ne_oldestNat]⟩
  · exact ⟨i, hi, by rwa [dxAdvance_read_other hio]⟩

/-- The step of the DX unit keeps R28. -/
theorem dxAdvance_live (h : d.Live K) : (dxAdvance d).Live K where
  bb_lt := h.bb_lt
  pp_prime := h.pp_prime
  kk_ge := h.kk_ge
  kk_le := h.kk_le
  ss_pos := h.ss_pos
  ss_lt := h.ss_lt
  cur_lt := by rw [h.advance_cur_toNat]; exact h.oldestNat_lt
  slot_lt i hi := by
    by_cases hio : i = oldestNat d
    · rw [hio, dxAdvance_read_oldest, h.slot_toNat]
      exact h.value_lt
    · rw [dxAdvance_read_other hio]
      exact h.slot_lt i hi
  slot_nonzero := h.advance_slot_nonzero
  dead_zero c hc := by
    rcases Memory.mem_write hc with rfl | hc
    · exact h.oldestNat_lt
    · exact h.dead_zero c hc

/-! The logical view (R27). -/

/-- The new value is the last one of the window. -/
theorem DxUnit.Live.logical_one (h : d.Live K) : (dxAdvance d).logical 1 = dxValueNat d := by
  have ho := h.oldestNat_lt
  have hslot : (oldestNat d + 1 + d.kk.toNat - 1) % d.kk.toNat = oldestNat d := by
    rw [Nat.add_right_comm, Nat.add_sub_cancel, Nat.add_mod_right, Nat.mod_eq_of_lt ho]
  rw [DxUnit.logical, h.advance_cur_toNat, dxAdvance_kk, hslot, dxAdvance_read_oldest, h.slot_toNat]

/-- What the step reads as `x[n-ss]` and `x[n-kk]` are those terms of the window. -/
theorem dxValueNat_eq_logical (d : DxUnit) :
    dxValueNat d = (d.bb.toNat * d.logical d.ss.toNat + d.logical d.kk.toNat) % d.pp.toNat := by
  rw [DxUnit.logical, DxUnit.logical, Nat.add_sub_cancel]
  rfl

/-- Every older value is one step further back. -/
theorem DxUnit.Live.logical_succ (h : d.Live K) {j : Nat} (h1 : 1 ≤ j) (hj : j < d.kk.toNat) :
    (dxAdvance d).logical (j + 1) = d.logical j := by
  have hcur := h.cur_lt
  have ho : oldestNat d = if d.cur.toNat + 1 < d.kk.toNat then d.cur.toNat + 1 else d.cur.toNat + 1 - d.kk.toNat :=
    mod_wrap (by omega)
  have hnew : (oldestNat d + 1 + d.kk.toNat - (j + 1)) % d.kk.toNat =
      (d.cur.toNat + 1 + d.kk.toNat - j) % d.kk.toNat := by
    rw [mod_wrap (by split at ho <;> omega), mod_wrap (by omega)]
    grind
  have hne : (d.cur.toNat + 1 + d.kk.toNat - j) % d.kk.toNat ≠ oldestNat d := by
    rw [mod_wrap (by omega)]
    grind
  rw [DxUnit.logical, h.advance_cur_toNat, dxAdvance_kk, hnew, dxAdvance_read_other hne, DxUnit.logical]

end Live

/-! Seeding. -/

theorem lt_of_mem_dxFixZero {p x : Nat} {v : List Nat} (hp : 1 < p) (hv : ∀ y ∈ v, y < p) (hx : x ∈ dxFixZero v) : x < p := by
  unfold dxFixZero at hx
  split at hx
  · cases v with
    | nil => cases hx
    | cons y v =>
      rcases List.mem_cons.1 hx with rfl | hx
      · exact hp
      · exact hv x (List.mem_cons_of_mem _ hx)
  · exact hv x hx

/-- After the fallback of R105 some value is not 0. -/
theorem exists_ne_zero_dxFixZero {v : List Nat} (hv : v ≠ []) : ∃ x ∈ dxFixZero v, x ≠ 0 := by
  unfold dxFixZero
  split
  · cases v with
    | nil => exact absurd rfl hv
    | cons y v => exact ⟨1, List.mem_cons_self, by decide⟩
  · next h => simpa using h

/-- A unit committed with legal parameters and `kk` values below `pp`, not all of them 0, meets R28. -/
theorem dxCommit_live {K bb pp kk ss : Nat} {v : List Nat} (hcheck : dxCheck K bb pp kk ss = none) (hK : K < 2 ^ 16)
    (hlen : v.length = kk) (hlt : ∀ x ∈ v, x < pp) (hne : ∃ x ∈ v, x ≠ 0) : (dxCommit bb pp kk ss v).Live K := by
  obtain ⟨⟨hss, hsk⟩, ⟨hpp, hprime⟩, ⟨hk1, hkK⟩, hbb⟩ := dxCheck_eq_none.1 hcheck
  have hpp' : pp < 2 ^ 31 := Nat.lt_of_le_of_lt hpp (by decide)
  have ebb : (BitVec.ofNat 31 bb).toNat = bb := by rw [BitVec.toNat_ofNat, Nat.mod_eq_of_lt (by omega)]
  have epp : (BitVec.ofNat 31 pp).toNat = pp := by rw [BitVec.toNat_ofNat, Nat.mod_eq_of_lt hpp']
  have ekk : (BitVec.ofNat 16 kk).toNat = kk := by rw [BitVec.toNat_ofNat, Nat.mod_eq_of_lt (by omega)]
  have ess : (BitVec.ofNat 16 ss).toNat = ss := by rw [BitVec.toNat_ofNat, Nat.mod_eq_of_lt (by omega)]
  have ecur : (BitVec.ofNat 16 (kk - 1)).toNat = kk - 1 := by rw [BitVec.toNat_ofNat, Nat.mod_eq_of_lt (by omega)]
  have hread : ∀ i (hi : i < v.length), ((Memory.ofValues (v.map (BitVec.ofNat 31))).read i).toNat = v[i] := by
    intro i hi
    have := hlt v[i] (List.getElem_mem hi)
    rw [Memory.read_ofValues, List.getD_eq_getElem _ _ (by simpa using hi), List.getElem_map, BitVec.toNat_ofNat,
      Nat.mod_eq_of_lt (by omega)]
  exact {
    bb_lt := by rw [dxCommit, ebb, epp]; exact hbb
    pp_prime := by rw [dxCommit, epp]; exact hprime
    kk_ge := by rw [dxCommit, ekk]; omega
    kk_le := by rw [dxCommit, ekk]; exact hkK
    ss_pos := by rw [dxCommit, ess]; exact hss
    ss_lt := by rw [dxCommit, ess, ekk]; exact hsk
    cur_lt := by rw [dxCommit, ecur, ekk]; omega
    slot_lt := fun i hi => by
      rw [dxCommit, ekk] at hi
      rw [dxCommit, hread i (by omega), epp]
      exact hlt _ (List.getElem_mem _)
    slot_nonzero := by
      obtain ⟨x, hx, hx0⟩ := hne
      obtain ⟨i, hi, rfl⟩ := List.getElem_of_mem hx
      refine ⟨i, by rw [dxCommit, ekk]; omega, fun h0 => hx0 ?_⟩
      rw [← hread i hi]
      exact congrArg BitVec.toNat h0
    dead_zero := fun c hc => by
      have := Memory.mem_ofValues hc
      rw [List.length_map] at this
      rw [dxCommit, ekk]
      omega }

/-- The unit a successful `DX.INIT.*` leaves meets R28. -/
theorem dxSeeded_live {K : Nat} {bb pp kk ss : Word} {ws : List Word}
    (hcheck : dxCheck K bb.toNat pp.toNat kk.toNat ss.toNat = none) (hK : K < 2 ^ 16) (hlen : ws.length = kk.toNat) :
    (dxSeeded bb pp kk ss ws).Live K := by
  obtain ⟨-, ⟨-, hprime⟩, ⟨hk, -⟩, -⟩ := dxCheck_eq_none.1 hcheck
  have hp := isPrime_two_le hprime
  refine dxCommit_live hcheck hK (by rw [dxSeedValues_length, hlen]) (fun x hx => ?_) (exists_ne_zero_dxFixZero ?_)
  · refine lt_of_mem_dxFixZero hp (fun y hy => ?_) hx
    obtain ⟨w, -, rfl⟩ := List.mem_map.1 hy
    exact Nat.mod_lt _ (by omega)
  · rw [← List.length_pos_iff, List.length_map]
    omega

/-! The invariant of the unit. -/

theorem DxUnit.cleared_inv (K : Nat) : DxUnit.cleared.Inv K :=
  ⟨Memory.wf_nil, fun h => absurd h (by decide), fun _ => rfl⟩

theorem dxSeeded_inv {K : Nat} {bb pp kk ss : Word} {ws : List Word}
    (hcheck : dxCheck K bb.toNat pp.toNat kk.toNat ss.toNat = none) (hK : K < 2 ^ 16) (hlen : ws.length = kk.toNat) :
    (dxSeeded bb pp kk ss ws).Inv K :=
  ⟨Memory.wf_ofValues _, fun _ => dxSeeded_live hcheck hK hlen, fun h => absurd h (by simp [dxSeeded, dxCommit])⟩

theorem dxAdvance_inv {K : Nat} {d : DxUnit} (hv : d.v = true) (h : d.Inv K) : (dxAdvance d).Inv K :=
  ⟨Memory.wf_write h.wf _ _, fun _ => dxAdvance_live (h.live hv), fun hf => absurd hf (by simp [hv])⟩

end Sys2Proof.Machine
end

section
/-!
PROOFS. What every command does, said once: the error it ends in, if there is one (`60_exceptions.md` R200, R201), and the
ways it can end without one. `executed_of_exec` and `exec_of_executed` tie them to `exec`, in both directions.
-/

namespace Sys2Proof.Machine

open Sys2Proof.Claims

/-- The error a command ends in, with its detail; none if it does not end in one. -/
def errorOf (s : State) : Instr → Option (ErrorCode × BitVec 8)
  | .dxInitSeed bb pp kk ss _ | .dxInitEnt bb pp kk ss =>
    (dxCheck s.kkMax.toNat bb.toNat pp.toNat kk.toNat ss.toNat).map (.invalidParameter, ·)
  | .dxNextRaw | .dxNextUnit => if s.dx.v then none else some (.notConfigured, 0)
  | .cmInitSeed bb1 bb2 _ | .cmInitEnt bb1 bb2 => (cmCheck bb1.toNat bb2.toNat).map (.invalidParameter, ·)
  | .cmNextRaw | .cmNextUnit => if s.cm.v then none else some (.notConfigured, 0)
  | .dxClr | .cmClr => none
  | .rdReg sel =>
    match Selector.ofCode sel with
    | none => some (.badSelector, 0)
    | some r => if r.need.met s then none else some (.notConfigured, 0)
  | .rdSlot i =>
    if s.dx.v then if s.dx.kk.toNat ≤ i.toNat then some (.badSelector, 0) else none
    else some (.notConfigured, 0)

/-- The value a DX unit answers to its two output commands, of a step from `d` (R114, R116). -/
inductive DxOutput (d : DxUnit) : Instr → Word → Prop
  | raw : DxOutput d .dxNextRaw (BitVec.ofNat 64 (dxValueNat d))
  | unit : DxOutput d .dxNextUnit (f64Ratio (dxValueNat d) d.pp.toNat)

/-- The value a CM unit answers to its two output commands, of a step from `c` (R164, R166). -/
inductive CmOutput (c : CmUnit) : Instr → Word → Prop
  | raw : CmOutput c .cmNextRaw (cmOutput (cmAdvance c))
  | unit : CmOutput c .cmNextUnit (f64Top53 (cmOutput (cmAdvance c)))

/-- The value an inspection command that passed its checks answers (R182, R184). -/
inductive ReadValue (s : State) : Instr → Word → Prop
  | reg {sel : Index} {r : Selector} (h : Selector.ofCode sel = some r) : ReadValue s (.rdReg sel) (r.value s)
  | slot {i : Index} (h : i.toNat < s.kkMax.toNat) : ReadValue s (.rdSlot i) ((s.dx.slots.read i.toNat).setWidth 64)

/-- What a DX command that passed its checks leaves of the unit `d`, how many of the entropy words `ent` it uses, and the data
words it answers: no other part of the block counts (R33). -/
inductive DxEffect (kkMax : Index) (ent : List Word) (d : DxUnit) : Instr → DxUnit → Nat → List Word → Prop
  | seed {bb pp kk ss seed : Word} (h : dxCheck kkMax.toNat bb.toNat pp.toNat kk.toNat ss.toNat = none) :
      DxEffect kkMax ent d (.dxInitSeed bb pp kk ss seed) (dxSeeded bb pp kk ss (seedwords seed kk.toNat)) 0 []
  | ent {bb pp kk ss : Word} (h : dxCheck kkMax.toNat bb.toNat pp.toNat kk.toNat ss.toNat = none)
      (hn : kk.toNat ≤ ent.length) :
      DxEffect kkMax ent d (.dxInitEnt bb pp kk ss) (dxSeeded bb pp kk ss (ent.take kk.toNat)) kk.toNat []
  | next {i : Instr} {out : Word} (h : DxOutput d i out) (hv : d.v = true) (hl : laggedNat d < kkMax.toNat)
      (ho : oldestNat d < kkMax.toNat) : DxEffect kkMax ent d i (dxAdvance d) 0 [out]
  | clr : DxEffect kkMax ent d .dxClr DxUnit.cleared 0 []

/-- The same for the CM unit. -/
inductive CmEffect (ent : List Word) (c : CmUnit) : Instr → CmUnit → Nat → List Word → Prop
  | seed {bb1 bb2 seed : Word} (h : cmCheck bb1.toNat bb2.toNat = none) :
      CmEffect ent c (.cmInitSeed bb1 bb2 seed) (cmSeeded bb1 bb2 (seedwords seed 8)) 0 []
  | ent {bb1 bb2 : Word} (h : cmCheck bb1.toNat bb2.toNat = none) (hn : 8 ≤ ent.length) :
      CmEffect ent c (.cmInitEnt bb1 bb2) (cmSeeded bb1 bb2 (ent.take 8)) 8 []
  | next {i : Instr} {out : Word} (h : CmOutput c i out) (hv : c.v = true) : CmEffect ent c i (cmAdvance c) 0 [out]
  | clr : CmEffect ent c .cmClr CmUnit.cleared 0 []

/-- How a command ends: in an error, with its unit written and a response, in a wait for entropy, or with what it read. -/
inductive Executed (s : State) (i : Instr) : State → Prop
  | error {e : ErrorCode} {detail : BitVec 8} (h : errorOf s i = some (e, detail)) :
      Executed s i (s.raise i.opcode.code e detail)
  | dx {d : DxUnit} {n : Nat} {data : List Word} (h : DxEffect s.kkMax s.entropyIn s.dx i d n data) :
      Executed s i (State.respond { s with dx := d, entropyIn := s.entropyIn.drop n } i.opcode.code data)
  | cm {c : CmUnit} {n : Nat} {data : List Word} (h : CmEffect s.entropyIn s.cm i c n data) :
      Executed s i (State.respond { s with cm := c, entropyIn := s.entropyIn.drop n } i.opcode.code data)
  | waits {c : EntropyCmd} (hi : c.instr = i) (h : c.checked s.kkMax.toNat) (hn : s.entropyIn.length < c.needs) :
      Executed s i (s.awaitEntropy c)
  | read {w : Word} (h : ReadValue s i w) (he : errorOf s i = none) : Executed s i (s.respond i.opcode.code [w])

theorem executed_of_exec {i : Instr} {s t : State} (h : exec i s = .next t) : Executed s i t := by
  cases i
  case dxInitSeed bb pp kk ss seed =>
    simp only [exec, execDxInitSeed] at h
    split at h
    · next d hd => cases h; exact .error (by simp [errorOf, hd])
    · next hd => cases h; exact .dx (.seed hd)
  case dxInitEnt bb pp kk ss =>
    simp only [exec, execDxInitEnt] at h
    split at h
    · next d hd => cases h; exact .error (by simp [errorOf, hd])
    · next hd =>
      by_cases hn : kk.toNat ≤ s.entropyIn.length
      · rw [State.drawEntropy_of_le hn] at h
        cases h
        exact .dx (.ent hd hn)
      · rw [State.drawEntropy_of_lt (by omega)] at h
        cases h
        exact .waits (c := .dxInit bb pp kk ss) rfl hd (Nat.lt_of_not_le hn)
  case dxNextRaw | dxNextUnit =>
    simp only [exec, execDxNextRaw, execDxNextUnit] at h
    split at h
    · next hv => cases h; exact .error (by simp [errorOf, hv])
    · next hv =>
      split at h
      · cases h
      · next v s' hs =>
        cases h
        obtain ⟨hl, ho, rfl, rfl⟩ := dxStep_eq_some_iff.1 hs
        exact .dx (.next (by constructor) (by simpa using hv) hl ho)
  case dxClr => cases h; exact .dx .clr
  case cmInitSeed bb1 bb2 seed =>
    simp only [exec, execCmInitSeed] at h
    split at h
    · next d hd => cases h; exact .error (by simp [errorOf, hd])
    · next hd => cases h; exact .cm (.seed hd)
  case cmInitEnt bb1 bb2 =>
    simp only [exec, execCmInitEnt] at h
    split at h
    · next d hd => cases h; exact .error (by simp [errorOf, hd])
    · next hd =>
      by_cases hn : 8 ≤ s.entropyIn.length
      · rw [State.drawEntropy_of_le hn] at h
        cases h
        exact .cm (.ent hd hn)
      · rw [State.drawEntropy_of_lt (by omega)] at h
        cases h
        exact .waits (c := .cmInit bb1 bb2) rfl hd (Nat.lt_of_not_le hn)
  case cmNextRaw | cmNextUnit =>
    simp only [exec, execCmNextRaw, execCmNextUnit] at h
    split at h
    · next hv => cases h; exact .error (by simp [errorOf, hv])
    · next hv => cases h; exact .cm (.next (by constructor) (by simpa using hv))
  case cmClr => cases h; exact .cm .clr
  case rdReg sel =>
    simp only [exec, execRdReg] at h
    split at h
    · next hr => cases h; exact .error (by simp [errorOf, hr])
    · next r hr =>
      split at h
      · next hm => cases h; exact .read (.reg hr) (by simp [errorOf, hr, hm])
      · next hm => cases h; exact .error (by simp [errorOf, hr, hm])
  case rdSlot i =>
    simp only [exec, execRdSlot] at h
    split at h
    · next hv => cases h; exact .error (by simp [errorOf, hv])
    · next hv =>
      split at h
      · next hi => cases h; exact .error (by simp [errorOf, hv, hi])
      · next hi =>
        split at h
        · cases h
        · next v hs =>
          cases h
          obtain ⟨hk, rfl⟩ := State.readSlot_eq_some.1 hs
          exact .read (.slot hk) (by simp [errorOf, hv, hi])

/-- A command that ends in an error sends its status word and does nothing else (R203). -/
theorem exec_of_errorOf {i : Instr} {s : State} {e : ErrorCode} {detail : BitVec 8} (h : errorOf s i = some (e, detail)) :
    exec i s = .next (s.raise i.opcode.code e detail) := by
  cases i
  case dxInitSeed | dxInitEnt | cmInitSeed | cmInitEnt =>
    obtain ⟨d, hd, hed⟩ := Option.map_eq_some_iff.1 h
    cases hed
    simp only [exec, execDxInitSeed, execDxInitEnt, execCmInitSeed, execCmInitEnt, hd, Instr.opcode]
  case dxNextRaw | dxNextUnit | cmNextRaw | cmNextUnit =>
    simp only [errorOf] at h
    split at h
    · cases h
    · next hv => cases h; exact if_pos (by simpa using hv)
  case dxClr | cmClr => cases h
  case rdReg sel =>
    simp only [errorOf] at h
    split at h
    · next hr => cases h; simp only [exec, execRdReg, hr, Instr.opcode]
    · next r hr =>
      split at h
      · cases h
      · next hm => cases h; simp [exec, execRdReg, hr, hm, Instr.opcode]
  case rdSlot i =>
    simp only [errorOf] at h
    split at h
    · next hv =>
      split at h
      · next hi => cases h; simp [exec, execRdSlot, hv, hi, Instr.opcode]
      · cases h
    · next hv => cases h; exact if_pos (by simpa using hv)

theorem DxEffect.exec {i : Instr} {s : State} {d : DxUnit} {n : Nat} {data : List Word}
    (h : DxEffect s.kkMax s.entropyIn s.dx i d n data) :
    exec i s = .next (State.respond { s with dx := d, entropyIn := s.entropyIn.drop n } i.opcode.code data) := by
  cases h with
  | seed h => simp only [Machine.exec, execDxInitSeed, h]; rfl
  | ent h hn => simp only [Machine.exec, execDxInitEnt, h, State.drawEntropy_of_le hn]; rfl
  | next h hv hl ho =>
    have hs := dxStep_eq_some_iff.2 ⟨hl, ho, rfl, rfl⟩
    cases h <;> simp only [Machine.exec, execDxNextRaw, execDxNextUnit, hv, hs] <;> rfl
  | clr => rfl

theorem CmEffect.exec {i : Instr} {s : State} {c : CmUnit} {n : Nat} {data : List Word}
    (h : CmEffect s.entropyIn s.cm i c n data) :
    exec i s = .next (State.respond { s with cm := c, entropyIn := s.entropyIn.drop n } i.opcode.code data) := by
  cases h with
  | seed h => simp only [Machine.exec, execCmInitSeed, h]; rfl
  | ent h hn => simp only [Machine.exec, execCmInitEnt, h, State.drawEntropy_of_le hn]; rfl
  | next h hv => cases h <;> simp only [Machine.exec, execCmNextRaw, execCmNextUnit, hv] <;> rfl
  | clr => rfl

theorem exec_of_checked {s : State} {c : EntropyCmd} (h : c.checked s.kkMax.toNat) (hn : s.entropyIn.length < c.needs) :
    exec c.instr s = .next (s.awaitEntropy c) := by
  have hd := State.drawEntropy_of_lt hn
  cases c with
  | dxInit bb pp kk ss =>
    simp only [EntropyCmd.checked, EntropyCmd.needs] at h hd
    simp only [EntropyCmd.instr, exec, execDxInitEnt, h, hd]
  | cmInit bb1 bb2 =>
    simp only [EntropyCmd.checked, EntropyCmd.needs] at h hd
    simp only [EntropyCmd.instr, exec, execCmInitEnt, h, hd]

theorem ReadValue.exec {i : Instr} {s : State} {w : Word} (h : ReadValue s i w) (he : errorOf s i = none) :
    exec i s = .next (s.respond i.opcode.code [w]) := by
  cases h with
  | @reg sel r hr =>
    have hm : r.need.met s = true := by simpa [errorOf, hr] using he
    simp [Machine.exec, execRdReg, hr, hm, Instr.opcode]
  | @slot i hk =>
    have hg : s.dx.v = true ∧ ¬s.dx.kk.toNat ≤ i.toNat := by
      simp only [errorOf] at he
      split at he <;> simp_all
    simp [Machine.exec, execRdSlot, hg.1, hg.2, State.readSlot_of_lt hk, Instr.opcode]

theorem exec_of_executed {i : Instr} {s t : State} (h : Executed s i t) : exec i s = .next t := by
  cases h with
  | error h => exact exec_of_errorOf h
  | dx h => exact h.exec
  | cm h => exact h.exec
  | waits hi h hn => exact hi ▸ exec_of_checked h hn
  | read h he => exact h.exec he

end Sys2Proof.Machine
end

section
/-!
PROOFS. What a step can do, said once, and the invariant of the block (`10_state.md` R26, R28, R32, R34, R36): it holds after
reset, and every step keeps it.
-/

namespace Sys2Proof.Machine

open Sys2Proof.Claims

/-- The parser's ways with the words there are (R74): nothing to take, an incomplete packet kept, or a whole packet. -/
theorem fetch_cases (s : State) :
    fetch s = .incomplete s ∨
    (∃ h ws, s.pendingWords = h :: ws ∧ ws.length < (Header.narg h).toNat ∧
      fetch s = .incomplete { s with parser := .operands h ws, cmdIn := [] }) ∨
    ∃ h ws, s.pendingWords = h :: ws ∧ (Header.narg h).toNat ≤ ws.length ∧
      fetch s = .packet ⟨h, ws.take (Header.narg h).toNat⟩
        { s with parser := .header, cmdIn := ws.drop (Header.narg h).toNat } := by
  unfold fetch
  split
  · exact .inl rfl
  · next h ws hp hc =>
    have hws : s.pendingWords = h :: ws := by simp only [State.pendingWords, hp, hc]
    rcases collect_spec h ws s with ⟨hn, hf⟩ | ⟨hn, hf⟩
    · exact .inr (.inr ⟨h, ws, hws, hn, hf⟩)
    · exact .inr (.inl ⟨h, ws, hws, hn, hf⟩)
  · next _ h got hp =>
    have hws : s.pendingWords = h :: (got ++ s.cmdIn) := by simp only [State.pendingWords, hp]
    rcases collect_spec h (got ++ s.cmdIn) s with ⟨hn, hf⟩ | ⟨hn, hf⟩
    · exact .inr (.inr ⟨h, _, hws, hn, hf⟩)
    · exact .inr (.inl ⟨h, _, hws, hn, hf⟩)

/-- What a step that goes on did. -/
inductive Stepped (s : State) : State → Prop
  /-- Reset, while `rst` is asserted (R220). -/
  | reset (hr : s.rst = true) : Stepped s s.applyReset
  /-- Nothing: no word to take, or no room for the response (R229). -/
  | idle (hr : s.rst = false) (hw : s.wait = none) : Stepped s s
  /-- An incomplete packet was taken into the parser (R74). -/
  | parsed {h : Word} {ws : List Word} (hr : s.rst = false) (hw : s.wait = none) (hws : s.pendingWords = h :: ws)
      (hn : ws.length < (Header.narg h).toNat) : Stepped s { s with parser := .operands h ws, cmdIn := [] }
  /-- A whole packet was taken and executed (R74, R229). -/
  | packet {h : Word} {ws : List Word} {t : State} (hr : s.rst = false) (hw : s.wait = none)
      (hws : s.pendingWords = h :: ws) (hn : (Header.narg h).toNat ≤ ws.length)
      (hrun : runPacket ⟨h, ws.take (Header.narg h).toNat⟩
        { s with parser := .header, cmdIn := ws.drop (Header.narg h).toNat } = .next t)
      (hroom : roomFor s t = true) : Stepped s t
  /-- A waiting command looked again at the entropy words (R227). -/
  | resumed {w : EntropyWait} {t : State} (hr : s.rst = false) (hw : s.wait = some w)
      (hrun : exec w.cmd.instr (s.resumeWith w) = .next t) : Stepped s t

theorem stepped_of_step {s t : State} (h : step s = .next t) : Stepped s t := by
  cases hr : s.rst with
  | true =>
    rw [step, hr] at h
    cases h
    exact .reset hr
  | false =>
    cases hw : s.wait with
    | some w => exact .resumed hr hw (step_of_wait hr hw ▸ h)
    | none =>
      rw [step_of_no_wait hr hw] at h
      rcases fetch_cases s with hf | ⟨hd, ws, hws, hn, hf⟩ | ⟨hd, ws, hws, hn, hf⟩ <;> rw [hf] at h
      · cases h
        exact .idle hr hw
      · cases h
        exact .parsed hr hw hws hn
      · simp only at h
        cases hrun : runPacket ⟨hd, ws.take (Header.narg hd).toNat⟩
            { s with parser := .header, cmdIn := ws.drop (Header.narg hd).toNat } with
        | next u =>
          rw [hrun, startIfRoom] at h
          split at h
          · next hroom => cases h; exact .packet hr hw hws hn hrun hroom
          · cases h; exact .idle hr hw
        | fault f => rw [hrun] at h; cases h
        | refused r => rw [hrun] at h; cases h

/-! What a command keeps. -/

theorem DxEffect.inv {kkMax : Index} {ent : List Word} {d d' : DxUnit} {i : Instr} {n : Nat} {data : List Word}
    (h : DxEffect kkMax ent d i d' n data) (hd : d.Inv kkMax.toNat) : d'.Inv kkMax.toNat := by
  cases h with
  | seed h => exact dxSeeded_inv h kkMax.isLt (seedwords_length _ _)
  | ent h hn => exact dxSeeded_inv h kkMax.isLt (List.length_take_of_le hn)
  | next _ hv => exact dxAdvance_inv hv hd
  | clr => exact DxUnit.cleared_inv _

theorem CmEffect.inv {ent : List Word} {c c' : CmUnit} {i : Instr} {n : Nat} {data : List Word}
    (h : CmEffect ent c i c' n data) (hc : c.Inv) : c'.Inv := by
  cases h with
  | seed h => exact cmSeeded_inv h _
  | ent h => exact cmSeeded_inv h _
  | next _ hv => exact cmAdvance_inv hv hc
  | clr => exact CmUnit.cleared_inv

/-- Every command keeps the invariants of both units. -/
theorem Executed.units_inv {i : Instr} {s t : State} (h : Executed s i t) (hdx : s.dx.Inv s.kkMax.toNat) (hcm : s.cm.Inv) :
    t.dx.Inv s.kkMax.toNat ∧ t.cm.Inv := by
  cases h with
  | dx h => exact ⟨h.inv hdx, hcm⟩
  | cm h => exact ⟨hdx, h.inv hcm⟩
  | error | waits | read => exact ⟨hdx, hcm⟩

/-- A command leaves the wait as it was, or begins to wait itself: its check has passed, words are missing (R227). -/
theorem Executed.wait_cases {i : Instr} {s t : State} (h : Executed s i t) :
    t.wait = s.wait ∨ ∃ c : EntropyCmd, c.checked s.kkMax.toNat ∧ s.entropyIn.length < c.needs ∧ t = s.awaitEntropy c := by
  cases h with
  | @waits c _ h hn => exact .inr ⟨c, h, hn, rfl⟩
  | error | dx | cm | read => exact .inl rfl

/-- A command executed with no other one waiting and with room for its response keeps the invariant. -/
theorem Executed.inv {i : Instr} {s t : State} (h : Executed s i t) (hs : s.Inv) (hp : s.parser = .header)
    (hw : s.wait = none) (hroom : s.respOut.length + 1 ≤ s.respCap) (hfits : t.respOut.length ≤ s.respCap) : t.Inv := by
  obtain ⟨hparser, -, hk, hcap, -, -⟩ := (ended_of_exec (exec_of_executed h)).frame
  obtain ⟨hdx, hcm⟩ := h.units_inv hs.dx hs.cm
  rw [← hk] at hdx
  refine ⟨hk ▸ hs.kkMax_ge, hcap ▸ hs.respCap_ge, hcap ▸ hfits, hdx, hcm, hparser ▸ hs.parser, fun w hwt => ?_⟩
  rcases h.wait_cases with hkept | ⟨c, hc, hn, rfl⟩
  · rw [hkept, hw] at hwt
    cases hwt
  · cases hwt
    exact ⟨hc, hn, hroom, hp⟩

/-- An answer that is no command's keeps the invariant, if there is room for it. -/
theorem raise_inv {s : State} {op detail : BitVec 8} {e : ErrorCode} (hs : s.Inv) (hw : s.wait = none)
    (hfits : (s.raise op e detail).respOut.length ≤ s.respCap) : (s.raise op e detail).Inv :=
  ⟨hs.kkMax_ge, hs.respCap_ge, hfits, hs.dx, hs.cm, hs.parser, fun w h => by
    rw [State.raise_wait, hw] at h
    cases h⟩

/-- The response of an `*.INIT.ENT` is one word or, while it waits, none (R72, R227). -/
theorem Executed.ent_respOut_le {c : EntropyCmd} {s t : State} (h : Executed s c.instr t) :
    t.respOut.length ≤ s.respOut.length + 1 := by
  cases ended_of_exec (exec_of_executed h) with
  | error => simp
  | waits => simp
  | answer d c' n data hd =>
    have hn : c.instr.opcode.ndata = 0 := by cases c <;> rfl
    simp [hd, hn]

/-! Reset and the steps. -/

theorem resetWith_inv {kkMax : Index} {respCap : Nat} (hk : 2 ≤ kkMax.toNat) (hr : 2 ≤ respCap) :
    (State.resetWith kkMax respCap).Inv :=
  ⟨hk, hr, Nat.zero_le _, DxUnit.cleared_inv _, CmUnit.cleared_inv, trivial, fun _ h => nomatch h⟩

theorem applyReset_inv {s : State} (hs : s.Inv) : s.applyReset.Inv :=
  ⟨hs.kkMax_ge, hs.respCap_ge, Nat.zero_le _, DxUnit.cleared_inv _, CmUnit.cleared_inv, trivial, fun _ h => nomatch h⟩

/-- With no command waiting, the words on the command channel and a parser that meets its invariant do not matter. -/
theorem State.Inv.of_parser {s : State} (hs : s.Inv) (hw : s.wait = none) {p : Parser} (hp : p.Inv) (ws : List Word) :
    State.Inv { s with parser := p, cmdIn := ws } :=
  ⟨hs.kkMax_ge, hs.respCap_ge, hs.resp_fits, hs.dx, hs.cm, hp, fun w h => by
    rw [show _ = s.wait from rfl, hw] at h
    cases h⟩

theorem State.Inv.resumeWith {s : State} (hs : s.Inv) (w : EntropyWait) : (s.resumeWith w).Inv :=
  ⟨hs.kkMax_ge, hs.respCap_ge, hs.resp_fits, hs.dx, hs.cm, hs.parser, fun _ h => nomatch h⟩

/-- A packet that had room for its response keeps the invariant, legal or not. -/
theorem runPacket_inv {p : Packet} {s t : State} (h : runPacket p s = .next t) (hs : s.Inv) (hp : s.parser = .header)
    (hw : s.wait = none) (hroom : s.respOut.length + 1 ≤ s.respCap) (hfits : t.respOut.length ≤ s.respCap) : t.Inv := by
  unfold runPacket at h
  split at h
  · exact (executed_of_exec h).inv hs hp hw hroom hfits
  · cases h
    exact raise_inv hs hw hfits

theorem Stepped.inv {s t : State} (h : Stepped s t) (hs : s.Inv) : t.Inv := by
  cases h with
  | reset => exact applyReset_inv hs
  | idle => exact hs
  | @parsed hd ws _ hw _ hn => exact hs.of_parser hw (p := .operands hd ws) hn []
  | packet _ hw _ _ hrun hroom =>
    obtain ⟨hroom, hfits⟩ := roomFor_iff.1 hroom
    exact runPacket_inv hrun (hs.of_parser hw (p := .header) trivial _) rfl hw hroom hfits
  | @resumed w _ _ hw hrun =>
    obtain ⟨-, -, hroom, hparser⟩ := hs.wait w hw
    have hx := executed_of_exec hrun
    exact hx.inv (hs.resumeWith w) hparser rfl hroom (Nat.le_trans hx.ent_respOut_le hroom)

end Sys2Proof.Machine

namespace Sys2Proof.Proofs

open Sys2Proof.Machine Sys2Proof.Claims

/-- Settles O44: both units are cleared, every channel is empty, and the two parameters are in their ranges. -/
theorem resetMeetsTheInvariant : Obligations.ResetMeetsTheInvariant :=
  ⟨resetWith_inv (by decide) (by decide), fun _ _ => resetWith_inv⟩

/-- Settles O43: by the five things a step can do. -/
theorem stepKeepsTheInvariant : Obligations.StepKeepsTheInvariant :=
  fun _ _ hs h => (stepped_of_step h).inv hs

end Sys2Proof.Proofs
end

section
/-!
PROOFS. Responses: which status word an end sends, and what a status word tells of the command (`30_encoding.md` R77,
`60_exceptions.md` R203).
-/

namespace Sys2Proof.Machine

open Sys2Proof.Claims

/-- The status word ends in the error code. -/
theorem statusWord_mod (ecode edetail opecho : BitVec 8) (dxv cmv : Bool) (ndata : Nat) :
    (statusWord ecode edetail opecho dxv cmv ndata).toNat % 2 ^ 8 = ecode.toNat := by
  rw [show (statusWord ecode edetail opecho dxv cmv ndata).toNat = _ from Sys2Proof.BitVec.toNat_append_eq _ ecode,
    Nat.mul_add_mod_of_lt ecode.isLt]

theorem statusNat_mod {ecode : Nat} (h : ecode < 2 ^ 8) (edetail opecho : Nat) (dxv cmv : Bool) (ndata : Nat) :
    statusNat ecode edetail opecho dxv cmv ndata % 2 ^ 8 = ecode := by
  unfold statusNat
  omega

theorem responds_raise (s : State) (op detail : BitVec 8) (e : ErrorCode) :
    Responds s (s.raise op e detail) e.code.toNat detail.toNat op.toNat [] :=
  ⟨_, rfl, by rw [List.map_singleton, statusWord_toNat _ _ _ _ _ (by decide)]; rfl⟩

/-- The response of a command that left the block in `u`, having started in `s`. -/
theorem responds_respond {s u : State} (hr : u.respOut = s.respOut) (op : BitVec 8) {data : List Word}
    (hd : data.length ≤ 1) : Responds s (u.respond op data) 0 0 op.toNat (data.map BitVec.toNat) := by
  refine ⟨_, by rw [State.respond_respOut, hr], ?_⟩
  rw [List.map_cons, statusWord_toNat _ _ _ _ _ (by omega), List.length_map]
  rfl

/-- A block that sent these words has responded with the code its first word ends in. -/
theorem ecode_eq_of_responds {s t : State} {ecode edetail opecho : Nat} {data : List Nat} {w : Word} {ws : List Word}
    (h : Responds s t ecode edetail opecho data) (hlt : ecode < 2 ^ 8) (ht : t.respOut = s.respOut ++ w :: ws) :
    ecode = w.toNat % 2 ^ 8 := by
  obtain ⟨vs, hvs, hmap⟩ := h
  obtain rfl : vs = w :: ws := List.append_cancel_left (hvs.symm.trans ht)
  rw [(List.cons.inj hmap).1, statusNat_mod hlt]

theorem respOut_ne_of_responds {s t : State} {ecode edetail opecho : Nat} {data : List Nat}
    (h : Responds s t ecode edetail opecho data) : t.respOut ≠ s.respOut := by
  obtain ⟨vs, hvs, hmap⟩ := h
  rintro heq
  obtain rfl : vs = [] := List.append_cancel_left (hvs.symm.trans (heq.trans (List.append_nil _).symm))
  cases hmap

theorem ErrorCode.code_pos (e : ErrorCode) : 0 < e.code.toNat := by cases e <;> decide

theorem DxEffect.data_le {kkMax : Index} {ent : List Word} {d d' : DxUnit} {i : Instr} {n : Nat} {data : List Word}
    (h : DxEffect kkMax ent d i d' n data) : data.length ≤ 1 := by
  cases h <;> simp

theorem CmEffect.data_le {ent : List Word} {c c' : CmUnit} {i : Instr} {n : Nat} {data : List Word}
    (h : CmEffect ent c i c' n data) : data.length ≤ 1 := by
  cases h <;> simp

/-- A command that answers an error code ended in an error and changed nothing but the response queue. -/
theorem Executed.of_error_response {i : Instr} {s t : State} (h : Executed s i t) {ecode edetail opecho : Nat}
    {data : List Nat} (hpos : 0 < ecode) (hlt : ecode < 2 ^ 8) (hr : Responds s t ecode edetail opecho data) :
    ∃ e detail, errorOf s i = some (e, detail) ∧ t = s.raise i.opcode.code e detail := by
  cases h with
  | error h => exact ⟨_, _, h, rfl⟩
  | waits => exact absurd rfl (respOut_ne_of_responds hr)
  | dx | cm | read =>
    rw [ecode_eq_of_responds hr hlt rfl, statusWord_mod] at hpos
    exact absurd hpos (by decide)

/-- An error never answers OK. -/
theorem not_responds_ok_raise {s : State} {op detail : BitVec 8} {e : ErrorCode} {edetail opecho : Nat} {data : List Nat} :
    ¬Responds s (s.raise op e detail) 0 edetail opecho data := by
  intro hr
  have h := ecode_eq_of_responds hr (by decide) rfl
  rw [statusWord_mod] at h
  exact absurd e.code_pos (by omega)

/-- A command that has its response, or waits and has sent nothing (R77, R227). -/
theorem Executed.responds_or_waits {i : Instr} {s t : State} (h : Executed s i t) :
    (t.wait ≠ none ∧ t.respOut = s.respOut) ∨
      ∃ ecode edetail data, ecode < 2 ^ 8 ∧ edetail < 2 ^ 8 ∧ Responds s t ecode edetail i.opcode.code.toNat data := by
  cases h with
  | @error e detail => exact .inr ⟨_, _, _, e.code.isLt, detail.isLt, responds_raise _ _ _ _⟩
  | dx h => exact .inr ⟨_, _, _, by decide, by decide, responds_respond (by rfl) _ h.data_le⟩
  | cm h => exact .inr ⟨_, _, _, by decide, by decide, responds_respond (by rfl) _ h.data_le⟩
  | waits => exact .inl ⟨by simp, rfl⟩
  | read => exact .inr ⟨_, _, _, by decide, by decide, responds_respond rfl _ (Nat.le_refl 1)⟩

/-- `RD.REG` of a listed selector whose need is met (R182). -/
theorem rdReg_answers {s : State} {sel : Index} {r : Selector} (hr : Selector.ofCode sel = some r)
    (hm : r.need.met s = true) :
    ∃ t, exec (.rdReg sel) s = .next t ∧ Responds s t 0 0 0x21 [(r.value s).toNat] ∧ OnlyResponse s t :=
  ⟨_, exec_of_executed (.read (.reg hr) (by simp [errorOf, hr, hm])), responds_respond rfl _ (Nat.le_refl 1), rfl⟩

theorem Stepped.kkMax_eq {s t : State} (h : Stepped s t) : t.kkMax = s.kkMax := by
  cases h with
  | reset | idle | parsed => rfl
  | packet _ _ _ _ hrun =>
    obtain ⟨-, -, hk, -⟩ := runPacket_frame hrun
    exact hk
  | resumed _ _ hrun =>
    obtain ⟨-, -, hk, -⟩ := (ended_of_exec hrun).frame
    exact hk

end Sys2Proof.Machine

namespace Sys2Proof.Proofs

open Sys2Proof.Machine Sys2Proof.Claims

/-- Settles O52: the three selectors need no configured unit, and nothing a step does writes `KK_MAX`. -/
theorem constantsReadTheSameForever : Obligations.ConstantsReadTheSameForever := by
  refine ⟨fun s => ⟨rdReg_answers (r := .blockId) rfl rfl, ?_, rdReg_answers (r := .ppMaxReg) rfl rfl⟩,
    fun _ _ h => (stepped_of_step h).kkMax_eq⟩
  have hk : (Selector.value s .kkMaxReg).toNat = s.kkMax.toNat := BitVec.toNat_setWidth_of_le (by decide)
  rw [← hk]
  exact rdReg_answers (by rfl) rfl

end Sys2Proof.Proofs
end

section
/-!
PROOFS. The writers of the architectural state: the flags (`10_state.md` R22), the table of R37, and the independence of the
two units (R33).
-/

namespace Sys2Proof.Machine

open Sys2Proof.Claims

/-! Which unit a command belongs to. -/

theorem DxEffect.kind {kkMax : Index} {ent : List Word} {d d' : DxUnit} {i : Instr} {n : Nat} {data : List Word}
    (h : DxEffect kkMax ent d i d' n data) : ofDx i = true ∧ ofCm i = false ∧ isRead i = false := by
  cases h with
  | next h => cases h <;> decide
  | seed | ent | clr => exact ⟨rfl, rfl, rfl⟩

theorem CmEffect.kind {ent : List Word} {c c' : CmUnit} {i : Instr} {n : Nat} {data : List Word}
    (h : CmEffect ent c i c' n data) : ofDx i = false ∧ ofCm i = true ∧ isRead i = false := by
  cases h with
  | next h => cases h <;> decide
  | seed | ent | clr => exact ⟨rfl, rfl, rfl⟩

theorem ReadValue.kind {s : State} {i : Instr} {w : Word} (h : ReadValue s i w) :
    ofDx i = false ∧ ofCm i = false ∧ isRead i = true := by
  cases h <;> exact ⟨rfl, rfl, rfl⟩

theorem EntropyCmd.isRead_instr (c : EntropyCmd) : isRead c.instr = false := by cases c <;> rfl

/-! R37. -/

/-- A command other than the clears, which never fail, keeps to its row of R37 when it only sent a response. -/
theorem writesOnly_of_onlyResponse {i : Instr} {s t : State} (h : OnlyResponse s t) (hdx : i ≠ .dxClr) (hcm : i ≠ .cmClr) :
    WritesOnly s t i := by
  obtain ⟨ws, rfl⟩ : ∃ ws, t = { s with respOut := ws } := ⟨_, h⟩
  cases i with
  | dxClr => exact absurd rfl hdx
  | cmClr => exact absurd rfl hcm
  | dxNextRaw | dxNextUnit => exact ⟨rfl, fun _ _ => rfl⟩
  | dxInitSeed | dxInitEnt | cmInitSeed | cmInitEnt | cmNextRaw | cmNextUnit | rdReg | rdSlot => rfl

theorem ne_clr_of_errorOf {s : State} {i : Instr} {e : ErrorCode × BitVec 8} (h : errorOf s i = some e) :
    i ≠ .dxClr ∧ i ≠ .cmClr := by
  constructor <;> (rintro rfl; cases h)

theorem DxEffect.writesOnly {s : State} {d : DxUnit} {i : Instr} {n : Nat} {data : List Word}
    (h : DxEffect s.kkMax s.entropyIn s.dx i d n data) :
    WritesOnly s (State.respond { s with dx := d, entropyIn := s.entropyIn.drop n } i.opcode.code data) i := by
  cases h with
  | seed | ent | clr => rfl
  | next h => cases h <;> exact ⟨rfl, fun _ hj => dxAdvance_read_other hj⟩

theorem CmEffect.writesOnly {s : State} {c : CmUnit} {i : Instr} {n : Nat} {data : List Word}
    (h : CmEffect s.entropyIn s.cm i c n data) :
    WritesOnly s (State.respond { s with cm := c, entropyIn := s.entropyIn.drop n } i.opcode.code data) i := by
  cases h with
  | seed | ent | clr => rfl
  | next h => cases h <;> rfl

theorem Executed.writesOnly {i : Instr} {s t : State} (h : Executed s i t) : WritesOnly s t i := by
  cases h with
  | error h => exact writesOnly_of_onlyResponse rfl (ne_clr_of_errorOf h).1 (ne_clr_of_errorOf h).2
  | dx h => exact h.writesOnly
  | cm h => exact h.writesOnly
  | @waits c hi => subst hi; cases c <;> rfl
  | read h => cases h <;> rfl

/-! R33. -/

/-- Two blocks in which a command ends in the same error answer alike. -/
theorem answersAlike_raise (s s' : State) (op detail : BitVec 8) (e : ErrorCode) :
    AnswersAlike s (s.raise op e detail) s' (s'.raise op e detail) op.toNat :=
  .inr ⟨rfl, rfl, _, _, _, e.code.isLt, detail.isLt, responds_raise _ _ _ _, responds_raise _ _ _ _⟩

/-- Two blocks that wrote their units and answer the same data words answer alike. -/
theorem answersAlike_respond {s s' u u' : State} (op : BitVec 8) {data : List Word} (hd : data.length ≤ 1)
    (hr : u.respOut = s.respOut) (hr' : u'.respOut = s'.respOut) (hw : u.wait = s.wait) (hw' : u'.wait = s'.wait) :
    AnswersAlike s (u.respond op data) s' (u'.respond op data) op.toNat :=
  .inr ⟨hw, hw', _, _, _, by decide, by decide, responds_respond hr op hd, responds_respond hr' op hd⟩

/-- Two blocks that hold the same entropy words wait alike. -/
theorem answersAlike_awaitEntropy {s s' : State} (h : s.entropyIn = s'.entropyIn) (c : EntropyCmd) (op : Nat) :
    AnswersAlike s (s.awaitEntropy c) s' (s'.awaitEntropy c) op :=
  .inl ⟨by simp, by simp [h], rfl, rfl⟩

/-- A DX command finds the same errors in every block with the same DX unit and capacity. -/
theorem errorOf_of_ofDx {i : Instr} {s s' : State} (hi : ofDx i = true) (hdx : s.dx = s'.dx) (hk : s.kkMax = s'.kkMax) :
    errorOf s i = errorOf s' i := by
  cases i <;> simp_all [errorOf, ofDx]

theorem errorOf_of_ofCm {i : Instr} {s s' : State} (hi : ofCm i = true) (hcm : s.cm = s'.cm) : errorOf s i = errorOf s' i := by
  cases i <;> simp_all [errorOf, ofCm]

/-- The check of a waiting CM command does not look at the capacity. -/
theorem EntropyCmd.checked_of_ofCm {c : EntropyCmd} (hi : ofCm c.instr = true) {K : Nat} (h : c.checked K) (K' : Nat) :
    c.checked K' := by
  cases c with
  | dxInit => cases hi
  | cmInit => exact h

/-- A DX command in two blocks that agree on the DX unit, the capacity and the entropy words. -/
theorem Executed.dx_congr {i : Instr} {s s' t : State} (h : Executed s i t) (hi : ofDx i = true) (hdx : s.dx = s'.dx)
    (hk : s.kkMax = s'.kkMax) (he : s.entropyIn = s'.entropyIn) :
    ∃ t', Executed s' i t' ∧ t'.dx = t.dx ∧ t'.entropyIn = t.entropyIn ∧ t.cm = s.cm ∧ t'.cm = s'.cm ∧
      AnswersAlike s t s' t' i.opcode.code.toNat := by
  cases h with
  | error h =>
    rw [errorOf_of_ofDx hi hdx hk] at h
    exact ⟨_, .error h, hdx.symm, he.symm, rfl, rfl, answersAlike_raise _ _ _ _ _⟩
  | dx h =>
    have hd := h.data_le
    rw [hk, he, hdx] at h
    exact ⟨_, .dx h, rfl, by simp [he], rfl, rfl, answersAlike_respond _ hd rfl rfl rfl rfl⟩
  | cm h => exact absurd hi (by simp [h.kind])
  | waits hc h hn =>
    rw [hk] at h
    rw [he] at hn
    exact ⟨_, .waits hc h hn, hdx.symm, rfl, rfl, rfl, answersAlike_awaitEntropy he _ _⟩
  | read h => exact absurd hi (by simp [h.kind])

/-- A CM command in two blocks that agree on the CM unit and the entropy words. -/
theorem Executed.cm_congr {i : Instr} {s s' t : State} (h : Executed s i t) (hi : ofCm i = true) (hcm : s.cm = s'.cm)
    (he : s.entropyIn = s'.entropyIn) :
    ∃ t', Executed s' i t' ∧ t'.cm = t.cm ∧ t'.entropyIn = t.entropyIn ∧ t.dx = s.dx ∧ t'.dx = s'.dx ∧
      AnswersAlike s t s' t' i.opcode.code.toNat := by
  cases h with
  | error h =>
    rw [errorOf_of_ofCm hi hcm] at h
    exact ⟨_, .error h, hcm.symm, he.symm, rfl, rfl, answersAlike_raise _ _ _ _ _⟩
  | cm h =>
    have hd := h.data_le
    rw [he, hcm] at h
    exact ⟨_, .cm h, rfl, by simp [he], rfl, rfl, answersAlike_respond _ hd rfl rfl rfl rfl⟩
  | dx h => exact absurd hi (by simp [h.kind])
  | waits hc h hn =>
    rw [← hc] at hi
    rw [he] at hn
    exact ⟨_, .waits hc (EntropyCmd.checked_of_ofCm hi h _) hn, hcm.symm, rfl, rfl, rfl, answersAlike_awaitEntropy he _ _⟩
  | read h => exact absurd hi (by simp [h.kind])

/-- An inspection command sends its response and does nothing else. -/
theorem Executed.onlyResponse_of_isRead {i : Instr} {s t : State} (h : Executed s i t) (hi : isRead i = true) :
    OnlyResponse s t := by
  cases h with
  | error | read => rfl
  | dx h => exact absurd hi (by simp [h.kind])
  | cm h => exact absurd hi (by simp [h.kind])
  | @waits c hc => exact absurd hi (by simp [← hc, c.isRead_instr])

end Sys2Proof.Machine

namespace Sys2Proof.Proofs

open Sys2Proof.Machine Sys2Proof.Claims

/-- Settles O13: each end of each command keeps to the row, and an error code is sent by an error only, which no clear is. -/
theorem commandsWriteOnlyWhatR37Lists : Obligations.CommandsWriteOnlyWhatR37Lists := by
  intro i s t h
  have hx := executed_of_exec h
  refine ⟨hx.writesOnly, fun ecode edetail opecho data hpos hlt _ _ hr => ?_⟩
  obtain ⟨e, detail, he, rfl⟩ := hx.of_error_response hpos hlt hr
  exact ⟨rfl, ne_clr_of_errorOf he⟩

/-- Settles O12: an error changes no unit, a success sets the flag of the unit it leaves, and the status word is made of the
flags after it. -/
theorem flagsHaveTheWritersOfR22 : Obligations.FlagsHaveTheWritersOfR22 := by
  refine ⟨fun i s t h => ⟨?_, ?_⟩, fun s t hrst h => ?_, fun p s t h => ?_, fun s => ?_⟩
  · intro edetail data opecho ecode hpos hlt _ _ hr
    obtain ⟨e, detail, -, rfl⟩ := (executed_of_exec h).of_error_response hpos hlt hr
    exact ⟨rfl, rfl⟩
  · intro data opecho _ hr
    have hx := executed_of_exec h
    clear h
    cases hx with
    | error => exact absurd hr not_responds_ok_raise
    | waits => exact absurd rfl (respOut_ne_of_responds hr)
    | read h => cases h <;> exact ⟨rfl, rfl⟩
    | dx h | cm h =>
      cases h with
      | next h => cases h <;> exact ⟨rfl, rfl⟩
      | seed | ent | clr => exact ⟨rfl, rfl⟩
  · rw [step, hrst] at h
    cases h
    exact ⟨rfl, rfl⟩
  · rw [← Header.op_toNat]
    unfold runPacket at h
    split at h
    · next i hd =>
      rw [op_of_decode hd]
      exact (executed_of_exec h).responds_or_waits
    · next e _ =>
      cases h
      exact .inr ⟨_, _, _, by decide, BitVec.isLt _, responds_raise _ _ _ _⟩
  · obtain ⟨t, ht, hr, -⟩ := rdReg_answers (s := s) (sel := 0x0003) (r := .unitFlags) (by rfl) rfl
    refine ⟨t, ht, ?_⟩
    have : (Selector.value s .unitFlags).toNat = 2 * s.cm.v.toNat + s.dx.v.toNat := by
      cases hc : s.cm.v <;> cases hd : s.dx.v <;> simp [Selector.value, unitFlags, hc, hd]
    rwa [this] at hr

/-- Settles O47: what a command of one unit does is determined by that unit, the capacity and the entropy words. -/
theorem unitsAreIndependent : Obligations.UnitsAreIndependent := by
  refine ⟨fun i s s' t hi hdx hk he h => ?_, fun i s s' t hi hcm he h => ?_,
    fun i s t hi h => (executed_of_exec h).onlyResponse_of_isRead hi⟩
  · obtain ⟨t', ht', hrest⟩ := (executed_of_exec h).dx_congr hi hdx hk he
    exact ⟨t', exec_of_executed ht', hrest⟩
  · obtain ⟨t', ht', hrest⟩ := (executed_of_exec h).cm_congr hi hcm he
    exact ⟨t', exec_of_executed ht', hrest⟩

end Sys2Proof.Proofs
end

section
/-!
PROOFS. The logical view of the DX unit (`10_state.md` R27) along one step and along a run of `DX.NEXT.RAW` (`40_dx_engine.md`
R107, R114): the window moves along the sequence that the recurrence defines.
-/

namespace Sys2Proof.Machine

open Sys2Proof.Claims

/-- `x` continues the window of `d` by the recurrence: its first `kk` terms are the window, oldest first (R27, R107). -/
structure Continues (d : DxUnit) (x : Nat → Nat) : Prop where
  window : ∀ j, 1 ≤ j → j ≤ d.kk.toNat → x (d.kk.toNat - j) = d.logical j
  recurrence : ∀ n, d.kk.toNat ≤ n → x n = (d.bb.toNat * x (n - d.ss.toNat) + x (n - d.kk.toNat)) % d.pp.toNat

section Live

variable {K : Nat} {d : DxUnit} {x : Nat → Nat}

/-- The next value of the recurrence is the next term. -/
theorem Continues.value_eq (hx : Continues d x) (h : d.Live K) : dxValueNat d = x d.kk.toNat := by
  have hss := h.ss_lt
  rw [hx.recurrence _ (Nat.le_refl _), dxValueNat_eq_logical, hx.window _ h.ss_pos (by omega),
    hx.window _ (by omega) (Nat.le_refl _)]

/-- After a step the sequence continues the new window from its second term on. -/
theorem Continues.advance (hx : Continues d x) (h : d.Live K) : Continues (dxAdvance d) fun n => x (n + 1) where
  window j h1 hj := by
    rw [dxAdvance_kk] at hj ⊢
    obtain _ | _ | j := j
    · omega
    · rw [h.logical_one, hx.value_eq h]
      congr 1
      omega
    · rw [h.logical_succ (by omega) (by omega), ← hx.window _ (by omega) (by omega)]
      congr 1
      omega
  recurrence n hn := by
    have hss := h.ss_lt
    simp only [dxAdvance_kk, dxAdvance_bb, dxAdvance_ss, dxAdvance_pp] at hn ⊢
    rw [hx.recurrence (n + 1) (by omega), Nat.sub_add_comm (by omega), Nat.sub_add_comm (by omega)]

end Live

/-- `DX.NEXT.RAW` on a unit that meets R28 (R114). -/
theorem exec_dxNextRaw_of_live {s : State} (hv : s.dx.v = true) (h : s.dx.Live s.kkMax.toNat) :
    exec .dxNextRaw s =
      .next ((s.setDx (dxAdvance s.dx)).respond Opcode.dxNextRaw.code [BitVec.ofNat 64 (dxValueNat s.dx)]) :=
  exec_of_executed (.dx (.next .raw hv (Nat.lt_of_lt_of_le h.laggedNat_lt h.kk_le)
    (Nat.lt_of_lt_of_le h.oldestNat_lt h.kk_le)))

/-- The two words that `DX.NEXT.RAW` sends. -/
theorem dxNextRaw_words {d : DxUnit} {K : Nat} (h : d.Live K) (dxv cmv : Bool) :
    [statusWord 0 0 Opcode.dxNextRaw.code dxv cmv 1, BitVec.ofNat 64 (dxValueNat d)].map BitVec.toNat =
      [statusNat 0 0 0x03 dxv cmv 1, dxValueNat d] := by
  have hpp := d.pp.isLt
  have hlt := h.value_lt
  rw [List.map_cons, List.map_singleton, statusWord_toNat _ _ _ _ _ (by decide), BitVec.toNat_ofNat,
    Nat.mod_eq_of_lt (by omega)]
  rfl

/-- Any number of `DX.NEXT.RAW` commands complete, answer the terms of the sequence one after another, and leave a window that
the sequence continues. -/
theorem execTimes_dxNextRaw {s : State} {x : Nat → Nat} (hv : s.dx.v = true) (h : s.dx.Live s.kkMax.toNat)
    (hx : Continues s.dx x) (m : Nat) :
    ∃ t, execTimes .dxNextRaw m s = some t ∧ t.dx.kk = s.dx.kk ∧ Continues t.dx (fun n => x (n + m)) ∧
      ∃ ws : List Word, t.respOut = s.respOut ++ ws ∧
        ws.map BitVec.toNat =
          (List.range m).flatMap fun q => [statusNat 0 0 0x03 true s.cm.v 1, x (s.dx.kk.toNat + q)] := by
  induction m generalizing s x with
  | zero => exact ⟨s, rfl, rfl, hx, [], by simp, rfl⟩
  | succ m ih =>
    obtain ⟨t, ht, hkk, hxt, ws, hws, hmap⟩ :=
      ih (s := (s.setDx (dxAdvance s.dx)).respond Opcode.dxNextRaw.code [BitVec.ofNat 64 (dxValueNat s.dx)])
        hv (dxAdvance_live h) (hx.advance h)
    refine ⟨t, ?_, hkk, ?_, _, hws.trans (List.append_assoc _ _ _), ?_⟩
    · rw [execTimes, exec_dxNextRaw_of_live hv h]
      exact ht
    · simpa only [Nat.add_assoc, Nat.add_comm 1 m] using hxt
    · have hwords := dxNextRaw_words h true s.cm.v
      rw [hx.value_eq h] at hwords
      rw [List.map_append, hmap, List.range_succ_eq_map, List.flatMap_cons, List.flatMap_map]
      simp only [State.setDx_dx, State.setDx_cm, dxAdvance_v, hv, hx.value_eq h]
      exact congrArg₂ (· ++ ·) hwords rfl

end Sys2Proof.Machine

namespace Sys2Proof.Proofs

open Sys2Proof.Machine Sys2Proof.Claims

/-- Settles O26: the step is `dxAdvance`, read through the slot formula. -/
theorem dxStepShiftsTheLogicalWindow : Obligations.DxStepShiftsTheLogicalWindow := by
  intro s t hv hl h
  rw [exec_dxNextRaw_of_live hv hl] at h
  cases h
  exact ⟨hl.logical_one.trans (dxValueNat_eq_logical s.dx), fun _ => hl.logical_succ⟩

/-- Settles O27, by induction on the number of commands: after each one the sequence, shifted by one, continues the window. -/
theorem dxOutputsFollowTheRecurrence : Obligations.DxOutputsFollowTheRecurrence := by
  intro s x hv hl hwindow hrec m
  obtain ⟨t, ht, hkk, hxt, hws⟩ := execTimes_dxNextRaw hv hl ⟨hwindow, hrec⟩ m
  refine ⟨t, ht, fun j h1 hj => ?_, hws⟩
  rw [← hxt.window j h1 (by rwa [hkk]), hkk]
  congr 1
  omega

end Sys2Proof.Proofs
end

section
/-!
PROOFS. The transport of words as bytes (`20_memory.md` R53), the units that the seeding commands leave (R55, `40_dx_engine.md`
R106, `41_combined_engine.md` R148), and the step that takes a whole packet off the channel (R56, `30_encoding.md` R74).
-/

namespace Sys2Proof

/-- Byte `j` of a word starts at bit `8j`. -/
theorem octetsOfWord_eq_map (w : Word) : octetsOfWord w = (List.range 8).map fun j => w.extractLsb' (8 * j) 8 := rfl

theorem octetsOfWord_getD (w : Word) {j : Nat} (h : j < 8) : (octetsOfWord w).getD j 0 = w.extractLsb' (8 * j) 8 := by
  rw [octetsOfWord_eq_map, List.getD_eq_getElem _ _ (by simpa using h), List.getElem_map, List.getElem_range]

/-- The bytes of a word, put together, are the word: neighbouring fields join into one field, and the last is all 64 bits. -/
theorem wordOfOctets_extractLsb' (w : Word) :
    wordOfOctets (w.extractLsb' 0 8) (w.extractLsb' 8 8) (w.extractLsb' 16 8) (w.extractLsb' 24 8)
      (w.extractLsb' 32 8) (w.extractLsb' 40 8) (w.extractLsb' 48 8) (w.extractLsb' 56 8) = w := by
  simp only [wordOfOctets, BitVec.extractLsb'_append_extractLsb'_eq_extractLsb']
  exact BitVec.extractLsb'_eq_self

/-- Reading the bytes of a word takes exactly these bytes. -/
theorem wordsOfOctets_octetsOfWord_append (w : Word) (bs : List Octet) :
    wordsOfOctets (octetsOfWord w ++ bs) = w :: wordsOfOctets bs :=
  congrArg (· :: wordsOfOctets bs) (wordOfOctets_extractLsb' w)

theorem wordsOfOctets_octetsOfWords (ws : List Word) : wordsOfOctets (octetsOfWords ws) = ws := by
  induction ws with
  | nil => rfl
  | cons w ws ih => rw [octetsOfWords, List.flatMap_cons, wordsOfOctets_octetsOfWord_append, ← octetsOfWords, ih]

end Sys2Proof

namespace Sys2Proof.Machine

open Sys2Proof.Claims

/-! The seeding commands. -/

/-- The check of R101 passes exactly on legal parameters. -/
theorem dxCheck_eq_none_iff_legal {s : State} {bb pp kk ss : Word} :
    dxCheck s.kkMax.toNat bb.toNat pp.toNat kk.toNat ss.toNat = none ↔ DxParametersLegal s bb pp kk ss := by
  rw [dxCheck_eq_none, and_comm (a := pp.toNat ≤ ppMax), Proofs.primalityTestIsExact]
  rfl

/-- The check of R140 passes exactly on multipliers that are not zero. -/
theorem cmCheck_eq_none_iff_ne_zero {bb1 bb2 : Word} :
    cmCheck bb1.toNat bb2.toNat = none ↔ bb1 ≠ 0 ∧ bb2 ≠ 0 := by
  rw [cmCheck_eq_none, ← BitVec.toNat_ne_iff_ne, ← BitVec.toNat_ne_iff_ne]
  rfl

/-- The unit `DX.INIT.SEED` leaves is made of its operands (R106). -/
theorem dx_of_exec_dxInitSeed {s t : State} {bb pp kk ss seed : Word} (hl : DxParametersLegal s bb pp kk ss)
    (h : exec (.dxInitSeed bb pp kk ss seed) s = .next t) : t.dx = dxSeeded bb pp kk ss (seedwords seed kk.toNat) := by
  have hd : DxEffect s.kkMax s.entropyIn s.dx (.dxInitSeed bb pp kk ss seed) _ _ _ := .seed (dxCheck_eq_none_iff_legal.2 hl)
  rw [hd.exec] at h
  cases h
  rfl

/-- The unit `CM.INIT.SEED` leaves is made of its operands (R148). -/
theorem cm_of_exec_cmInitSeed {s t : State} {bb1 bb2 seed : Word} (h1 : bb1 ≠ 0) (h2 : bb2 ≠ 0)
    (h : exec (.cmInitSeed bb1 bb2 seed) s = .next t) : t.cm = cmSeeded bb1 bb2 (seedwords seed 8) := by
  have hc : CmEffect s.entropyIn s.cm (.cmInitSeed bb1 bb2 seed) _ _ _ :=
    .seed (cmCheck_eq_none_iff_ne_zero.2 ⟨h1, h2⟩)
  rw [hc.exec] at h
  cases h
  rfl

/-! The packet at the head of the channel. -/

/-- A parser that expects a header takes a whole packet as it stands on the channel (R74). -/
theorem fetch_of_packetOfWords {s : State} {p : Packet} {rest : List Word} (hp : s.parser = .header)
    (h : packetOfWords s.cmdIn = some (p, rest)) : fetch s = .packet p { s with cmdIn := rest } := by
  obtain ⟨hd, ws, hc⟩ : ∃ hd ws, s.cmdIn = hd :: ws := List.exists_cons_of_ne_nil fun hc => by
    rw [hc] at h
    cases h
  rw [hc, packetOfWords] at h
  split at h
  · next hn =>
    cases h
    simp only [fetch, hp, hc, collect, if_pos hn]
  · cases h

/-- A step of an idle block with a whole packet on the channel starts it, if there is room (R74, R229). -/
theorem step_of_packetOfWords {s : State} {p : Packet} {rest : List Word} (hs : Idle s)
    (h : packetOfWords s.cmdIn = some (p, rest)) : step s = startIfRoom s (runPacket p { s with cmdIn := rest }) := by
  obtain ⟨hr, hw, hp⟩ := hs
  rw [step_of_no_wait hr hw, fetch_of_packetOfWords hp h]

theorem runPacket_of_decode {p : Packet} {i : Instr} (h : decode p = .ok i) (s : State) : runPacket p s = exec i s := by
  rw [runPacket, h]

end Sys2Proof.Machine

namespace Sys2Proof.Proofs

open Sys2Proof.Machine Sys2Proof.Claims

/-- Settles O9: the packet is fetched as it stands, and `startIfRoom` decides on the room. -/
theorem stepRunsTheDecodedCommand : Obligations.StepRunsTheDecodedCommand := by
  intro s p rest i hs hw hd
  rw [step_of_packetOfWords hs hw, runPacket_of_decode hd]
  refine ⟨fun t ht h1 h2 => ?_, fun t ht hfull => ?_, fun f hf => ?_⟩
  · rw [ht]
    exact if_pos (roomFor_iff.2 ⟨h1, h2⟩)
  · rw [ht]
    refine if_neg fun hroom => ?_
    obtain ⟨h1, h2⟩ := roomFor_iff.1 hroom
    omega
  · rw [hf]
    rfl

/-- Settles O53, by induction on the list of words. -/
theorem littleEndianBytesCarryTheWords : Obligations.LittleEndianBytesCarryTheWords := by
  refine ⟨wordsOfOctets_octetsOfWords, fun w j hj => ?_⟩
  rw [octetsOfWord_getD w hj, BitVec.extractLsb'_toNat, Nat.shiftRight_eq_div_pow]

/-- Settles O54: each unit is the one made of the operands. -/
theorem seedingDependsOnItsOperandsAlone : Obligations.SeedingDependsOnItsOperandsAlone := fun _ _ _ _ =>
  ⟨fun _ _ _ _ _ hl hl' h h' => (dx_of_exec_dxInitSeed hl h).trans (dx_of_exec_dxInitSeed hl' h').symm,
    fun _ _ _ h1 h2 h h' => (cm_of_exec_cmInitSeed h1 h2 h).trans (cm_of_exec_cmInitSeed h1 h2 h').symm⟩

end Sys2Proof.Proofs
end

section
/-!
PROOFS. The encoding (`30_encoding.md` R71 to R76): the decoder and the encoder undo each other, and the decoder's answer in
terms of the checks of `WellFormed.lean`, one lemma for each.
-/

namespace Sys2Proof

/-! Round trips. -/

/-- `IMM16` is zero in a command that does not use it (R71). -/
theorem Instr.imm_eq_zero {i : Instr} (h : i.opcode.usesImm = false) : i.imm = 0 := by
  cases i
  case rdReg | rdSlot => cases h
  all_goals rfl

theorem decode_encode (i : Instr) : decode (encode i) = .ok i :=
  decode_eq_ok.2 ⟨i.opcode, by simp [encode], by simp [encode], fun h => by simp [encode, Instr.imm_eq_zero h],
    by simp [encode], by simp [encode]⟩

theorem encode_of_decode {p : Packet} {i : Instr} (h : decode p = .ok i) : encode i = p := by
  obtain ⟨o, hop, hnarg, himm, hrsv, hbuild⟩ := decode_eq_ok.1 h
  obtain ⟨rfl, hoperands, hi⟩ := Opcode.of_build_eq_some hbuild
  have himm' : i.imm = Header.imm p.header := by
    cases hu : i.opcode.usesImm with
    | true => rw [hi, hu, if_pos rfl]
    | false => rw [Instr.imm_eq_zero hu, himm hu]
  have hheader : Header.make i.opcode.code i.opcode.narg i.imm 0 = p.header := by
    rw [Opcode.code_of_ofCode hop, ← hnarg, himm', ← hrsv, ← Header.eq_make]
  rw [encode, hheader, hoperands]

/-! The opcode table. -/

theorem exists_code_of_opcodeShape {n : Nat} (h : opcodeShape n ≠ none) : ∃ o : Opcode, o.code.toNat = n := by
  unfold opcodeShape at h
  split at h
  · exact ⟨.dxInitSeed, rfl⟩
  · exact ⟨.dxInitEnt, rfl⟩
  · exact ⟨.dxNextRaw, rfl⟩
  · exact ⟨.dxNextUnit, rfl⟩
  · exact ⟨.dxClr, rfl⟩
  · exact ⟨.cmInitSeed, rfl⟩
  · exact ⟨.cmInitEnt, rfl⟩
  · exact ⟨.cmNextRaw, rfl⟩
  · exact ⟨.cmNextUnit, rfl⟩
  · exact ⟨.cmClr, rfl⟩
  · exact ⟨.rdReg, rfl⟩
  · exact ⟨.rdSlot, rfl⟩
  · exact absurd rfl h

/-- The ranges of R73 are what the table of R72 leaves out. -/
theorem reserved_iff {n : Nat} : Claims.Reserved n ↔ opcodeShape n = none := by
  unfold Claims.Reserved
  constructor
  · intro hr
    by_contra hs
    obtain ⟨o, rfl⟩ := exists_code_of_opcodeShape hs
    cases o <;> simp [Opcode.code] at hr
  · intro hs
    unfold opcodeShape at hs
    split at hs
    case h_13 =>
      simp only [imp_false] at *
      omega
    all_goals cases hs

/-! The checks of R75, one by one. -/

theorem Packet.shape_eq (p : Packet) : p.shape = opcodeShape (Header.op p.header).toNat := by
  rw [Header.op_toNat, Packet.shape]

theorem Packet.opListed_iff {p : Packet} : p.opListed = true ↔ ∃ o, Opcode.ofCode (Header.op p.header) = some o := by
  rw [Packet.opListed, Packet.shape_eq, Option.isSome_iff_ne_none]
  constructor
  · intro hs
    obtain ⟨o, ho⟩ := exists_code_of_opcodeShape hs
    exact ⟨o, BitVec.eq_of_toNat_eq ho ▸ Opcode.ofCode_code o⟩
  · rintro ⟨o, ho⟩
    rw [← Opcode.code_of_ofCode ho, Opcode.shape_code]
    exact Option.some_ne_none _

section Listed

variable {p : Packet} {o : Opcode} (ho : Opcode.ofCode (Header.op p.header) = some o)

include ho

theorem Packet.shape_of_ofCode : p.shape = some (o.narg.toNat, o.usesImm) := by
  rw [Packet.shape_eq, ← Opcode.code_of_ofCode ho, Opcode.shape_code]

theorem Packet.nargRight_iff : p.nargRight = true ↔ Header.narg p.header = o.narg := by
  rw [Packet.nargRight, Packet.shape_of_ofCode ho, Option.any_some, beq_iff_eq, ← Header.narg_toNat,
    BitVec.toNat_inj, eq_comm]

theorem Packet.immUsedOrZero_iff : p.immUsedOrZero = true ↔ (o.usesImm = false → Header.imm p.header = 0) := by
  rw [Packet.immUsedOrZero, Packet.shape_of_ofCode ho, Option.any_some, ← Header.imm_toNat]
  cases o.usesImm <;> simp [← BitVec.toNat_inj]

end Listed

theorem Packet.rsvZero_iff {p : Packet} : p.rsvZero = true ↔ Header.rsv p.header = 0 := by
  rw [Packet.rsvZero, beq_iff_eq, ← Header.rsv_toNat, ← BitVec.toNat_inj]
  rfl

theorem Packet.framed_iff {p : Packet} : p.framed = true ↔ p.operands.length = (Header.narg p.header).toNat := by
  rw [Packet.framed, beq_iff_eq, Header.narg_toNat]

theorem Packet.wellFormed_iff {p : Packet} : p.wellFormed = true ↔
    p.framed = true ∧ p.opListed = true ∧ p.nargRight = true ∧ p.immUsedOrZero = true ∧ p.rsvZero = true := by
  simp only [Packet.wellFormed, Bool.and_eq_true, and_assoc]

/-! What the decoder answers when a check of R75 is the first to fail, and when none does. -/

theorem decode_of_not_opListed {p : Packet} (h1 : p.opListed = false) : decode p = .error .reservedOp := by
  cases ho : Opcode.ofCode (Header.op p.header) with
  | none => rw [decode, ho]
  | some o => exact absurd (Packet.opListed_iff.2 ⟨o, ho⟩) (by simp [h1])

theorem decode_of_not_nargRight {p : Packet} (h1 : p.opListed = true) (h2 : p.nargRight = false) :
    decode p = .error .nargMismatch := by
  obtain ⟨o, ho⟩ := Packet.opListed_iff.1 h1
  have hn : Header.narg p.header ≠ o.narg := fun h => by simp [(Packet.nargRight_iff ho).2 h] at h2
  rw [decode, ho]
  exact if_pos hn

theorem decode_of_not_immUsedOrZero {p : Packet} (h1 : p.opListed = true) (h2 : p.nargRight = true)
    (h3 : p.immUsedOrZero = false) : decode p = .error .immNonzero := by
  obtain ⟨o, ho⟩ := Packet.opListed_iff.1 h1
  have hn := (Packet.nargRight_iff ho).1 h2
  have hi : o.usesImm = false ∧ Header.imm p.header ≠ 0 := by
    rw [← Classical.not_imp, ← Packet.immUsedOrZero_iff ho, h3]
    decide
  rw [decode, ho]
  exact (if_neg (not_not.2 hn)).trans (if_pos hi)

theorem decode_of_not_rsvZero {p : Packet} (h1 : p.opListed = true) (h2 : p.nargRight = true)
    (h3 : p.immUsedOrZero = true) (h4 : p.rsvZero = false) : decode p = .error .rsvNonzero := by
  obtain ⟨o, ho⟩ := Packet.opListed_iff.1 h1
  have hn := (Packet.nargRight_iff ho).1 h2
  have hi : ¬(o.usesImm = false ∧ Header.imm p.header ≠ 0) :=
    fun ⟨hu, hne⟩ => hne ((Packet.immUsedOrZero_iff ho).1 h3 hu)
  have hr : Header.rsv p.header ≠ 0 := fun h => by simp [Packet.rsvZero_iff.2 h] at h4
  rw [decode, ho]
  exact (if_neg (not_not.2 hn)).trans ((if_neg hi).trans (if_pos hr))

theorem exists_decode_of_wellFormed {p : Packet} (h : p.wellFormed = true) : ∃ i, decode p = .ok i := by
  obtain ⟨hf, h1, h2, h3, h4⟩ := Packet.wellFormed_iff.1 h
  obtain ⟨o, ho⟩ := Packet.opListed_iff.1 h1
  have hn := (Packet.nargRight_iff ho).1 h2
  obtain ⟨i, hi⟩ := Opcode.exists_build (imm := Header.imm p.header) ((Packet.framed_iff.1 hf).trans (congrArg _ hn))
  exact ⟨i, decode_eq_ok.2 ⟨o, ho, hn, (Packet.immUsedOrZero_iff ho).1 h3, Packet.rsvZero_iff.1 h4, hi⟩⟩

end Sys2Proof

namespace Sys2Proof.Machine

open Sys2Proof.Claims

/-- A packet that is no command is answered with ILLEGAL_CMD and the detail of its check, and nothing else (R75, R203). -/
theorem fails_of_decode_error {p : Packet} {e : DecodeError} (h : decode p = .error e) (s : State) :
    Fails s (runPacket p s) 1 e.detail.toNat (p.header.toNat % 2 ^ 8) := by
  rw [← Header.op_toNat, runPacket, h]
  exact ⟨_, rfl, responds_raise s _ _ .illegalCmd, rfl⟩

end Sys2Proof.Machine

namespace Sys2Proof.Proofs

open Sys2Proof.Machine Sys2Proof.Claims

/-- Settles O1: the header gives its fields back, and the operand words build the command again. -/
theorem decodeOfEncodeIsTheCommand : Obligations.DecodeOfEncodeIsTheCommand := decode_encode

/-- Settles O2: an accepted header is made of the fields of its command. -/
theorem encodeOfDecodeIsThePacket : Obligations.EncodeOfDecodeIsThePacket := fun _ _ => encode_of_decode

/-- Settles O3: an accepted packet is an encoding, so it is well formed; a well-formed one passes each check. -/
theorem decodeAcceptsExactlyTheLegalPackets : Obligations.DecodeAcceptsExactlyTheLegalPackets :=
  fun _ => ⟨fun ⟨i, h⟩ => encode_of_decode h ▸ Laws.encode_wellFormed i, exists_decode_of_wellFormed⟩

/-- Settles O4: one check after the other. -/
theorem illegalPacketsAnswerTheFirstFailedCheck : Obligations.IllegalPacketsAnswerTheFirstFailedCheck := by
  refine fun p s _ => ⟨fun h1 => ?_, fun h1 h2 => ?_, fun h1 h2 h3 => ?_, fun h1 h2 h3 h4 => ?_, fun h => ?_⟩
  · exact fails_of_decode_error (decode_of_not_opListed h1) s
  · exact fails_of_decode_error (decode_of_not_nargRight h1 h2) s
  · exact fails_of_decode_error (decode_of_not_immUsedOrZero h1 h2 h3) s
  · exact fails_of_decode_error (decode_of_not_rsvZero h1 h2 h3 h4) s
  · obtain ⟨i, hi⟩ := exists_decode_of_wellFormed h
    exact ⟨i, encode_of_decode hi, runPacket_of_decode hi s⟩

/-- Settles O5: a reserved opcode has no row in the table, so it fails the first check. -/
theorem reservedOpcodesAreIllegal : Obligations.ReservedOpcodesAreIllegal := by
  refine ⟨fun p s hr => ?_, fun _ _ => reserved_iff, by decide +kernel⟩
  have h1 : p.opListed = false := by rw [Packet.opListed, Packet.shape, reserved_iff.1 hr, Option.isSome_none]
  exact fails_of_decode_error (decode_of_not_opListed h1) s

/-- Settles O6, by running the decoder on each of the five streams. -/
theorem writtenOutWordsDecode : Obligations.WrittenOutWordsDecode := ⟨rfl, rfl, rfl, rfl, rfl⟩

end Sys2Proof.Proofs
end

section
/-!
PROOFS. Framing (`30_encoding.md` R74) and the responses of packets (R70, R77): a step goes by the pending words alone,
wherever they stand, and a packet that ends has queued one response.
-/

namespace Sys2Proof.Machine

open Sys2Proof.Claims

/-- What the parser does goes by the words taken and not yet executed, in the parser or behind it. -/
theorem fetch_of_pendingWords {s : State} {h : Word} {ws : List Word} (hp : s.pendingWords = h :: ws) :
    fetch s = collect h ws s := by
  unfold State.pendingWords at hp
  split at hp
  · next hparser => simp only [fetch, hparser, hp]
  · next hparser =>
    cases hp
    simp only [fetch, hparser]

section Framing

variable {s : State} {h : Word} {ws : List Word} (hr : s.rst = false) (hw : s.wait = none) (hp : s.pendingWords = h :: ws)

include hr hw hp

theorem step_of_short_packet (hn : ws.length < nargNat h) :
    step s = .next { s with parser := .operands h ws, cmdIn := [] } := by
  rw [nargNat, ← Header.narg_toNat] at hn
  rw [step_of_no_wait hr hw, fetch_of_pendingWords hp, collect, if_neg (Nat.not_le.2 hn)]

theorem step_of_whole_packet (hroom : s.respOut.length + 2 ≤ s.respCap) (hn : nargNat h ≤ ws.length) :
    step s = runPacket ⟨h, ws.take (nargNat h)⟩ { s with parser := .header, cmdIn := ws.drop (nargNat h) } := by
  rw [nargNat, ← Header.narg_toNat] at hn ⊢
  rw [step_of_no_wait hr hw, fetch_of_pendingWords hp, collect, if_pos hn]
  exact startIfRoom_of_room hroom rfl

end Framing

theorem ErrorCode.code_le (e : ErrorCode) : e.code.toNat ≤ 4 := by cases e <;> decide

end Sys2Proof.Machine

namespace Sys2Proof.Proofs

open Sys2Proof.Machine Sys2Proof.Claims

/-- Settles O7: in both states of the parser the pending words are the header and the words after it. -/
theorem framingTakesTheHeaderAndItsOperands : Obligations.FramingTakesTheHeaderAndItsOperands := by
  intro s h ws hr hw hroom hparser
  have hp : s.pendingWords = h :: ws := by
    rcases hparser with ⟨hp, hc⟩ | ⟨got, more, hp, hc, rfl⟩ <;> simp only [State.pendingWords, hp, hc]
  refine ⟨fun hn => ?_, step_of_short_packet hr hw hp⟩
  have hstep := step_of_whole_packet hr hw hp hroom hn
  refine ⟨hstep, fun t ht => ?_⟩
  obtain ⟨hparser, hcmdIn, -⟩ := runPacket_frame (hstep ▸ ht)
  exact ⟨hparser, hcmdIn⟩

/-- Settles O8: with the rest arrived, the pending words are those of the packet that arrives at once. -/
theorem packetsMayArriveInPieces : Obligations.PacketsMayArriveInPieces := by
  rintro s h ws vs ⟨hr, hw, hp⟩ hroom hc hshort hwhole
  have hfirst : s.pendingWords = h :: ws := by simp only [State.pendingWords, hp, hc]
  have hatOnce := step_of_whole_packet (s := { s with cmdIn := h :: (ws ++ vs) }) hr hw
    (by simp only [State.pendingWords, hp]) hroom hwhole
  have hpieces := step_of_whole_packet (s := { s with parser := .operands h ws, cmdIn := vs }) hr hw rfl hroom hwhole
  exact ⟨_, step_of_short_packet hr hw hfirst hshort, rfl, hpieces.trans hatOnce.symm⟩

/-- Settles O10: by the three ways a command can end, and an illegal packet ends in an error. -/
theorem everyPacketGetsOneResponse : Obligations.EveryPacketGetsOneResponse := by
  intro p s t hw h
  rw [← Header.op_toNat]
  unfold runPacket at h
  split at h
  · next i hi =>
    rw [op_of_decode hi]
    cases ended_of_exec h with
    | error e detail hd =>
      exact .inr ⟨hw, _, _, [], responds_raise s _ detail e, e.code_le, Nat.le_succ_of_le hd,
        fun h0 => absurd h0 (Nat.ne_of_gt e.code_pos), fun _ => rfl⟩
    | waits => exact .inl ⟨Option.some_ne_none _, rfl⟩
    | answer d c n data hdata =>
      have hle : data.length ≤ 1 := by rw [hdata]; cases i.opcode <;> decide
      refine .inr ⟨hw, 0, 0, _, responds_respond rfl _ hle, by decide, by decide,
        fun _ => ⟨rfl, ?_⟩, fun h => absurd rfl h⟩
      intro j hj
      cases hi.symm.trans hj
      rw [List.length_map, hdata]
  · next e he =>
    cases h
    exact .inr ⟨hw, _, _, [], responds_raise s _ e.detail .illegalCmd, ErrorCode.code_le _, e.detail_le,
      fun h0 => absurd h0 (by decide), fun _ => rfl⟩

end Sys2Proof.Proofs
end

section
/-!
PROOFS. Seed expansion (`40_dx_engine.md` R100): the model's words as numbers, and the state each of them comes from.
-/

namespace Sys2Proof.Machine

open Sys2Proof.Claims

theorem smGamma_toNat : smGamma.toNat = 0x9E3779B97F4A7C15 := rfl
theorem smMix1_toNat : smMix1.toNat = 0xBF58476D1CE4E5B9 := rfl
theorem smMix2_toNat : smMix2.toNat = 0x94D049BB133111EB := rfl

theorem smState_toNat (s : Word) : (smState s).toNat = smStateNat s.toNat := by
  rw [smState, BitVec.toNat_add, smGamma_toNat, smStateNat]

/-- One round of the mixing, as numbers (R100). -/
theorem smMix_toNat (z m : Word) (k : Nat) :
    ((z ^^^ (z >>> k)) * m).toNat = ((z.toNat ^^^ (z.toNat >>> k)) * m.toNat) % 2 ^ 64 := by
  rw [BitVec.toNat_mul, BitVec.toNat_xor, BitVec.toNat_ushiftRight]

theorem smOutput_toNat (s' : Word) : (smOutput s').toNat = smWordNat s'.toNat := by
  unfold smOutput smWordNat
  rw [BitVec.toNat_xor, BitVec.toNat_ushiftRight, smMix_toNat, smMix_toNat, smMix1_toNat, smMix2_toNat]

/-- One step of the expansion state is one more constant. -/
theorem smState_add_mul (seed : Word) (i : Nat) :
    smState (seed + BitVec.ofNat 64 i * smGamma) = seed + BitVec.ofNat 64 (i + 1) * smGamma := by
  rw [smState, BitVec.ofNat_add, BitVec.add_mul, BitVec.one_mul, BitVec.add_assoc]

/-- The expansion state after `k` calls has grown by `k` times the constant. -/
theorem smStatesNat_eq (seed : Word) (k : Nat) :
    smStatesNat seed.toNat k = (seed + BitVec.ofNat 64 k * smGamma).toNat := by
  induction k with
  | zero => simp [smStatesNat]
  | succ k ih => rw [smStatesNat, ih, ← smState_toNat, smState_add_mul]

theorem seedwords_getElem? {seed : Word} {n i : Nat} (h : i < n) :
    (seedwords seed n)[i]? = some (smOutput (smState (seed + BitVec.ofNat 64 i * smGamma))) := by
  induction n generalizing seed i with
  | zero => omega
  | succ n ih =>
    cases i with
    | zero => simp [seedwords]
    | succ i =>
      have hshift : smState seed + BitVec.ofNat 64 i * smGamma = seed + BitVec.ofNat 64 (i + 1) * smGamma := by
        rw [← smState_add_mul, smState, smState, add_right_comm]
      rw [seedwords, List.getElem?_cons_succ, ih (Nat.lt_of_succ_lt_succ h), hshift]

/-- The words of the expansion, as numbers, are those of R100. -/
theorem seedwords_getD_toNat {seed : Word} {n i : Nat} (h : i < n) :
    ((seedwords seed n).getD i 0).toNat = seedwordNat seed.toNat i := by
  rw [List.getD_eq_getElem?_getD, seedwords_getElem? h, Option.getD_some, smOutput_toNat, smState_toNat, seedwordNat,
    smStatesNat, smStatesNat_eq]

end Sys2Proof.Machine

namespace Sys2Proof.Proofs

open Sys2Proof.Machine Sys2Proof.Claims

/-- Settles O14: the machine words are the numbers of the rule, each from the state its calls lead to. -/
theorem seedExpansionIsSplitMix : Obligations.SeedExpansionIsSplitMix :=
  ⟨fun s => ⟨smState_toNat s, smOutput_toNat s⟩,
    fun seed n _ => ⟨seedwords_length seed n, seedwords_getD_toNat⟩, by decide⟩

/-- Settles O15, by induction on the number of words: each call adds the constant to the state. -/
theorem seedwordsComeFromEvenlySpacedStates : Obligations.SeedwordsComeFromEvenlySpacedStates :=
  fun _ _ _ => seedwords_getElem?

end Sys2Proof.Proofs
end

section
/-!
PROOFS. The life of a DX engine but its steps: the parameter check (`40_dx_engine.md` R101), the unit that seeding leaves
(R102 to R106), and its destruction (R118).
-/

namespace Sys2Proof.Machine

open Sys2Proof.Claims

/-- A command that ends in an error fails with that error's code and detail. -/
theorem fails_of_errorOf {s : State} {i : Instr} {e : ErrorCode} {detail : BitVec 8}
    (h : errorOf s i = some (e, detail)) :
    Fails s (exec i s) e.code.toNat detail.toNat i.opcode.code.toNat :=
  ⟨_, exec_of_errorOf h, responds_raise _ _ _ _, rfl⟩

/-- A command that fails with whatever `dxCheck` finds gives the answers of R101. -/
theorem dxCheckAnswers_of_fails {s : State} {bb pp kk ss : Word} {op : Nat} {o : Host.Outcome State Fault Refusal}
    (h : ∀ detail, dxCheck s.kkMax.toNat bb.toNat pp.toNat kk.toNat ss.toNat = some detail →
      Fails s o 2 detail.toNat op) : DxCheckAnswers s bb pp kk ss op o := by
  unfold DxCheckAnswers
  rw [← Proofs.primalityTestIsExact, and_comm (a := isPrime _ = true), show 2 ^ 31 - 1 = ppMax from rfl]
  unfold dxCheck at h
  refine ⟨fun h3 => ?_, fun h3 h1 => ?_, fun h3 h1 h2 => ?_, fun h3 h1 h2 h0 => ?_⟩
  · exact h 3 (if_pos h3)
  · exact h 1 (by rw [if_neg (not_not.2 h3)]; exact if_pos h1)
  · exact h 2 (by rw [if_neg (not_not.2 h3), if_neg (not_not.2 h1)]; exact if_pos h2)
  · exact h 0 (by rw [if_neg (not_not.2 h3), if_neg (not_not.2 h1), if_neg (not_not.2 h2)]; exact if_pos h0)

/-! The seeded values (R104, R105) and the unit made of them (R106). The values before the fallback
are `f 0, ..., f (kk - 1)`. -/

section Values

variable {kk i : Nat} {f : Nat → Nat}

theorem dxFixZero_getD_of_ne_zero (h : ∃ j, j < kk ∧ f j ≠ 0) (hi : i < kk) :
    (dxFixZero ((List.range kk).map f)).getD i 0 = f i := by
  have hne : ¬((List.range kk).map f).all (fun x => x == 0) = true := by simpa using h
  unfold dxFixZero
  rw [if_neg hne]
  simp [hi]

theorem dxFixZero_getD_of_all_zero (h : ∀ j, j < kk → f j = 0) (hi : i < kk) :
    (dxFixZero ((List.range kk).map f)).getD i 0 = if i = 0 then 1 else 0 := by
  have hz : ((List.range kk).map f).all (fun x => x == 0) = true := by simpa using h
  unfold dxFixZero
  rw [if_pos hz]
  obtain _ | kk := kk
  · exact absurd hi (Nat.not_lt_zero i)
  · rw [List.range_succ_eq_map, List.map_cons]
    cases i with
    | zero => rfl
    | succ i => simpa [Nat.lt_of_succ_lt_succ hi] using h _ hi

theorem dxFixZero_getD_of_le (h : kk ≤ i) : (dxFixZero ((List.range kk).map f)).getD i 0 = 0 :=
  List.getD_eq_default _ _ (by simpa [dxFixZero_length] using h)

end Values

/-- The seeded values, from the source words as numbers (R104). -/
theorem dxSeedValues_eq {pp kk : Nat} {ws : List Word} {w : Nat → Nat} (hlen : ws.length = kk)
    (hw : ∀ i, i < kk → (ws.getD i 0).toNat = w i) :
    dxSeedValues pp ws = dxFixZero ((List.range kk).map fun i => w i % pp) := by
  refine congrArg dxFixZero (List.ext_getElem (by simp [hlen]) fun i h1 _ => ?_)
  rw [List.length_map] at h1
  rw [List.getElem_map, List.getElem_map, List.getElem_range, ← hw i (hlen ▸ h1), List.getD_eq_getElem _ _ h1]

/-- The registers a commit writes hold the parameters that passed the check (R106). -/
theorem dxCommit_registers {K bb pp kk ss : Nat} (hcheck : dxCheck K bb pp kk ss = none) (hK : K < 2 ^ 16) (v : List Nat) :
    (dxCommit bb pp kk ss v).bb.toNat = bb ∧ (dxCommit bb pp kk ss v).pp.toNat = pp ∧
      (dxCommit bb pp kk ss v).kk.toNat = kk ∧ (dxCommit bb pp kk ss v).ss.toNat = ss ∧
      (dxCommit bb pp kk ss v).cur.toNat = kk - 1 := by
  obtain ⟨⟨-, hss⟩, ⟨hpp, -⟩, ⟨-, hkk⟩, hbb⟩ := dxCheck_eq_none.1 hcheck
  unfold ppMax at hpp
  simp only [dxCommit, BitVec.toNat_ofNat]
  refine ⟨?_, ?_, ?_, ?_, ?_⟩ <;> exact Nat.mod_eq_of_lt (by omega)

theorem dxCommit_read (bb pp kk ss : Nat) (v : List Nat) (i : Nat) :
    (dxCommit bb pp kk ss v).slots.read i = BitVec.ofNat 31 (v.getD i 0) :=
  (Memory.read_ofValues _ _).trans (List.getD_map _ _ (BitVec.ofNat 31))

/-- The unit made of legal parameters and `kk` source words is that of R104 to R106. -/
theorem dxSeeded_holds {K : Nat} {bb pp kk ss : Word} {ws : List Word} {w : Nat → Nat}
    (hcheck : dxCheck K bb.toNat pp.toNat kk.toNat ss.toNat = none) (hK : K < 2 ^ 16) (hlen : ws.length = kk.toNat)
    (hw : ∀ i, i < kk.toNat → (ws.getD i 0).toNat = w i) :
    DxHolds (dxSeeded bb pp kk ss ws) bb.toNat pp.toNat kk.toNat ss.toNat w := by
  obtain ⟨-, ⟨hle, hprime⟩, -, -⟩ := dxCheck_eq_none.1 hcheck
  have hfits (n : Nat) : n % pp.toNat < 2 ^ 31 :=
    Nat.lt_of_lt_of_le (Nat.mod_lt _ (Nat.zero_lt_of_lt (isPrime_two_le hprime))) (Nat.le_trans hle (by decide))
  obtain ⟨hbb, hpp, hkk, hss, hcur⟩ := dxCommit_registers hcheck hK (dxSeedValues pp.toNat ws)
  refine ⟨rfl, hbb, hpp, hkk, hss, hcur, fun hne i hi => ?_, fun hzero i hi => ?_, fun i hi => ?_⟩ <;>
    rw [dxSeeded, dxCommit_read, dxSeedValues_eq hlen hw]
  · rw [dxFixZero_getD_of_ne_zero hne hi, BitVec.toNat_ofNat, Nat.mod_eq_of_lt (hfits _)]
  · rw [dxFixZero_getD_of_all_zero hzero hi]
    split <;> rfl
  · exact congrArg (BitVec.ofNat 31) (dxFixZero_getD_of_le hi)

end Sys2Proof.Machine

namespace Sys2Proof.Proofs

open Sys2Proof.Machine Sys2Proof.Claims

/-- Settles O17: both commands end in the error that `dxCheck` finds. -/
theorem dxInitChecksItsParametersInOrder : Obligations.DxInitChecksItsParametersInOrder := by
  refine fun s bb pp kk ss seed => ⟨dxCheckAnswers_of_fails fun d hd => ?_, dxCheckAnswers_of_fails fun d hd => ?_⟩
  · exact fails_of_errorOf (i := .dxInitSeed bb pp kk ss seed) (e := .invalidParameter) (by rw [errorOf, hd]; rfl)
  · exact fails_of_errorOf (i := .dxInitEnt bb pp kk ss) (e := .invalidParameter) (by rw [errorOf, hd]; rfl)

/-- Settles O18: the check passes, and the unit is that of the expansion words. -/
theorem dxInitSeedFillsTheUnit : Obligations.DxInitSeedFillsTheUnit := by
  intro s bb pp kk ss seed hl
  have hcheck := dxCheck_eq_none_iff_legal.2 hl
  exact ⟨_, (DxEffect.seed hcheck).exec,
    dxSeeded_holds hcheck s.kkMax.isLt (seedwords_length _ _) fun _ => seedwords_getD_toNat,
    responds_respond rfl _ (Nat.zero_le 1), rfl⟩

/-- Settles O19: the check passes, and the unit is that of the first `kk` entropy words. -/
theorem dxInitEntFillsTheUnit : Obligations.DxInitEntFillsTheUnit := by
  intro s bb pp kk ss hl hn
  have hcheck := dxCheck_eq_none_iff_legal.2 hl
  have hdrawn (i : Nat) (hi : i < kk.toNat) :
      ((s.entropyIn.take kk.toNat).getD i 0).toNat = (s.entropyIn.getD i 0).toNat := by
    rw [List.getD_eq_getElem?_getD, List.getElem?_take_of_lt hi, List.getD_eq_getElem?_getD]
  exact ⟨_, (DxEffect.ent hcheck hn).exec, dxSeeded_holds hcheck s.kkMax.isLt (List.length_take_of_le hn) hdrawn,
    responds_respond rfl _ (Nat.zero_le 1), rfl⟩

/-- Settles O28: the cleared unit, whatever the state. -/
theorem dxClrZeroesTheUnit : Obligations.DxClrZeroesTheUnit :=
  fun _ => ⟨_, DxEffect.clr.exec, rfl, rfl, rfl, rfl, rfl, rfl, Memory.read_nil,
    responds_respond rfl _ (Nat.zero_le 1), rfl⟩

end Sys2Proof.Proofs
end

section
/-!
PROOFS. The two output commands of the DX unit on a unit that meets R28 (`40_dx_engine.md` R107, R114, R116).
-/

namespace Sys2Proof.Machine

open Sys2Proof.Claims

/-- `DX.NEXT.UNIT` on a unit that meets R28 (R116). -/
theorem exec_dxNextUnit_of_live {s : State} (hv : s.dx.v = true) (h : s.dx.Live s.kkMax.toNat) :
    exec .dxNextUnit s =
      .next ((s.setDx (dxAdvance s.dx)).respond Opcode.dxNextUnit.code [f64Ratio (dxValueNat s.dx) s.dx.pp.toNat]) :=
  exec_of_executed (.dx (.next .unit hv (Nat.lt_of_lt_of_le h.laggedNat_lt h.kk_le)
    (Nat.lt_of_lt_of_le h.oldestNat_lt h.kk_le)))

/-- Whatever it answers, a command that wrote the advanced unit made the step of R107. -/
theorem dxStepped_respond {s : State} (h : s.dx.Live s.kkMax.toNat) (op : BitVec 8) (data : List Word) :
    DxStepped s ((s.setDx (dxAdvance s.dx)).respond op data) :=
  ⟨rfl, h.advance_cur_toNat, (congrArg BitVec.toNat (dxAdvance_read_oldest s.dx)).trans h.slot_toNat,
    fun _ => dxAdvance_read_other⟩

/-- With lag 1 the step reads the most recent value (R107). -/
theorem DxUnit.Live.laggedNat_of_ss_one {K : Nat} {d : DxUnit} (h : d.Live K) (hss : d.ss.toNat = 1) :
    laggedNat d = d.cur.toNat := by
  rw [laggedNat, hss, Nat.add_right_comm, Nat.add_sub_cancel, Nat.add_mod_right, Nat.mod_eq_of_lt h.cur_lt]

/-- With multiplier 0 the step returns the oldest value again (R107). -/
theorem DxUnit.Live.value_of_bb_zero {K : Nat} {d : DxUnit} (h : d.Live K) (hbb : d.bb.toNat = 0) :
    dxValueNat d = (d.slots.read (oldestNat d)).toNat := by
  rw [dxValueNat, hbb, Nat.zero_mul, Nat.zero_add, Nat.mod_eq_of_lt (h.slot_lt _ h.oldestNat_lt)]

end Sys2Proof.Machine

namespace Sys2Proof.Proofs

open Sys2Proof.Machine Sys2Proof.Claims

/-- Settles O23: the unit left is `dxAdvance`, and the value fits its word. -/
theorem dxNextRawMakesTheStep : Obligations.DxNextRawMakesTheStep := fun _ hv h =>
  ⟨⟨_, exec_dxNextRaw_of_live hv h, dxStepped_respond h _ _, h.value_lt, _, rfl, dxNextRaw_words h _ _⟩,
    h.laggedNat_ne_oldestNat, h.laggedNat_of_ss_one, h.value_of_bb_zero⟩

/-- Settles O24: both commands leave `dxAdvance`. -/
theorem dxNextUnitMakesTheSameStep : Obligations.DxNextUnitMakesTheSameStep := fun _ hv h =>
  ⟨_, _, exec_dxNextUnit_of_live hv h, exec_dxNextRaw_of_live hv h, rfl, dxStepped_respond h _ _,
    responds_respond rfl _ (Nat.le_refl 1)⟩

end Sys2Proof.Proofs
end

section
/-!
PROOFS. The unit-interval mapping of the DX unit (`40_dx_engine.md` R108, R109): the fields of the pattern, its distance from
`n / d`, and its order.
-/

namespace Sys2Proof.Machine

open Sys2Proof.Claims

/-- `e` and `f` are the biased exponent and the fraction of the binary64 number nearest to `n / d`: it has the exponent of
`n / d` and is less than half a unit of its last place away from it (R108). -/
structure NearestFields (n d e f : Nat) : Prop where
  fraction_lt : f < 2 ^ 52
  exponent_ge : 992 ≤ e
  exponent_le : e ≤ 1022
  ratio_ge : d ≤ n * 2 ^ (1023 - e)
  ratio_lt : n * 2 ^ (1023 - e) < 2 * d
  above_lt : 2 * ((2 ^ 52 + f) * d) < 2 * (n * 2 ^ (1075 - e)) + d
  below_lt : 2 * (n * 2 ^ (1075 - e)) < 2 * ((2 ^ 52 + f) * d) + d

/-- A multiple of a power of two above `d` is never half-way between two multiples of `d`: that power would divide `d` times
an odd number. -/
theorem two_mul_ne_of_lt_two_pow {n d q j : Nat} (h0 : 0 < d) (hd : d < 2 ^ j) : 2 * (n * 2 ^ j) ≠ 2 * (q * d) + d := by
  intro h
  have hdvd : 2 ^ j ∣ (2 * q + 1) * d := ⟨2 * n, by linarith⟩
  have hcop : Nat.Coprime (2 ^ j) (2 * q + 1) := Nat.Coprime.pow_left j (by simp)
  exact absurd (Nat.le_of_dvd h0 (hcop.dvd_of_dvd_mul_left hdvd)) (by omega)

/-- Such a multiple has no tie, so its rounded quotient is less than half a unit off (R108). -/
theorem roundNearestEven_lt {n d q j : Nat} (h0 : 0 < d) (hd : d < 2 ^ j)
    (hq : roundNearestEven (n * 2 ^ j / d) (n * 2 ^ j % d) d = q) :
    2 * (q * d) < 2 * (n * 2 ^ j) + d ∧ 2 * (n * 2 ^ j) < 2 * (q * d) + d := by
  obtain ⟨habove, hbelow, -⟩ := roundNearestEven_spec (S := n * 2 ^ j) h0
  rw [hq] at habove hbelow
  refine ⟨lt_of_le_of_ne habove fun h => ?_, lt_of_le_of_ne hbelow (two_mul_ne_of_lt_two_pow h0 hd)⟩
  cases q with
  | zero => omega
  | succ q => exact two_mul_ne_of_lt_two_pow (n := n) (q := q) h0 hd (by linarith)

/-- A quotient of 53 bits, rounded, still has 53 bits: `n / d` is too far from the next power of two (R108). -/
theorem rounded_bounds {S d q : Nat} (hd : d < 2 ^ 52) (hge : 2 ^ 52 * d ≤ S) (hlt : S + 2 ^ 52 ≤ 2 ^ 53 * d)
    (habove : 2 * (q * d) < 2 * S + d) (hbelow : 2 * S < 2 * (q * d) + d) : 2 ^ 52 ≤ q ∧ q < 2 ^ 53 := by
  constructor
  · by_contra hq
    have : q * d ≤ (2 ^ 52 - 1) * d := Nat.mul_le_mul_right d (by omega)
    omega
  · by_contra hq
    have : 2 ^ 53 * d ≤ q * d := Nat.mul_le_mul_right d (by omega)
    omega

/-- A pattern of sign 0 is its two fields (`30_encoding.md` R78). -/
theorem f64Pattern_toNat {e f : Nat} (he : e < 2 ^ 11) (hf : f < 2 ^ 52) :
    (BitVec.ofNat 64 ((e <<< 52) ||| f)).toNat = e * 2 ^ 52 + f := by
  rw [← Nat.shiftLeft_add_eq_or_of_lt hf, Nat.shiftLeft_eq, BitVec.toNat_ofNat, Nat.mod_eq_of_lt (by omega)]

@[simp] theorem f64Ratio_zero (d : Nat) : f64Ratio 0 d = 0 := if_pos rfl

/-- The pattern where rounding does not reach `2^53` (R108). -/
theorem f64Ratio_eq {n d k q : Nat} (hn : n ≠ 0) (hk : ratioShift n d d 1 = k)
    (hq : roundNearestEven (n * 2 ^ (52 + k) / d) (n * 2 ^ (52 + k) % d) d = q) (hlt : q < 2 ^ 53) :
    f64Ratio n d = BitVec.ofNat 64 (((1023 - k) <<< 52) ||| (q - 2 ^ 52)) := by
  unfold f64Ratio
  rw [if_neg hn, hk]
  simp only [hq]
  exact if_neg (Nat.ne_of_lt hlt)

section Ratio

variable {n d : Nat} (hn : 0 < n) (hnd : n < d) (hd : d ≤ 2 ^ 31 - 1)

include hn hnd hd

/-- The `k` of R108 lies between 1 and 31 and scales `n / d` into `[1, 2)`. -/
theorem ratioShift_bounds :
    1 ≤ ratioShift n d d 1 ∧ ratioShift n d d 1 ≤ 31 ∧ d ≤ n * 2 ^ ratioShift n d d 1 ∧
      n * 2 ^ ratioShift n d d 1 < 2 * d := by
  have hfound : d ≤ n * 2 ^ d := Nat.le_trans Nat.lt_two_pow_self.le (Nat.le_mul_of_pos_left _ hn)
  obtain ⟨h1, -, hge, hleast⟩ := ratioShift_spec (k := 1) (fuel := d) (by omega) (by omega) hfound
  refine ⟨h1, ?_, hge, ?_⟩
  · by_contra h31
    have := hleast 31 (by decide) (by omega)
    omega
  · generalize ratioShift n d d 1 = k at *
    obtain _ | _ | k := k
    · omega
    · omega
    · have := hleast (k + 1) (by omega) (by omega)
      rw [Nat.pow_succ, ← Nat.mul_assoc]
      omega

/-- The pattern is that of the nearest number, for every ratio above 0 and below 1 (R108). -/
theorem f64Ratio_nearest : ∃ e f, (f64Ratio n d).toNat = e * 2 ^ 52 + f ∧ NearestFields n d e f := by
  obtain ⟨hk1, hk31, hge, hlt⟩ := ratioShift_bounds hn hnd hd
  generalize hk : ratioShift n d d 1 = k at *
  have hpow : d < 2 ^ (52 + k) :=
    Nat.lt_of_lt_of_le (Nat.lt_of_le_of_lt hd (by decide)) (Nat.pow_le_pow_right (by decide) (Nat.le_add_right 52 k))
  have hscaled : n * 2 ^ (52 + k) = 2 ^ 52 * (n * 2 ^ k) := by rw [Nat.pow_add, Nat.mul_left_comm]
  obtain ⟨q, hq⟩ : ∃ q, roundNearestEven (n * 2 ^ (52 + k) / d) (n * 2 ^ (52 + k) % d) d = q := ⟨_, rfl⟩
  obtain ⟨habove, hbelow⟩ := roundNearestEven_lt (Nat.zero_lt_of_lt hnd) hpow hq
  obtain ⟨hq52, hq53⟩ := rounded_bounds (by omega) (by omega) (by omega) habove hbelow
  have he : 1023 - (1023 - k) = k := by omega
  have he' : 1075 - (1023 - k) = 52 + k := by omega
  have hf : 2 ^ 52 + (q - 2 ^ 52) = q := by omega
  refine ⟨1023 - k, q - 2 ^ 52, ?_, ?_⟩
  · rw [f64Ratio_eq (Nat.ne_of_gt hn) hk hq hq53, f64Pattern_toNat (by omega) (by omega)]
  · exact ⟨by omega, by omega, by omega, by rwa [he], by rwa [he], by rwa [he', hf], by rwa [he', hf]⟩

end Ratio

/-- The fields of nearest numbers order as the ratios do (R109). -/
theorem NearestFields.mono {n m d e f e' f' : Nat} (h : NearestFields n d e f) (h' : NearestFields m d e' f')
    (hnm : n ≤ m) : e * 2 ^ 52 + f ≤ e' * 2 ^ 52 + f' := by
  have hf := h.fraction_lt
  rcases Nat.lt_trichotomy e e' with hlt | rfl | hgt
  · omega
  · have hscaled : n * 2 ^ (1075 - e) ≤ m * 2 ^ (1075 - e) := Nat.mul_le_mul_right _ hnm
    have habove := h.above_lt
    have hbelow := h'.below_lt
    have : f < f' + 1 := by
      by_contra hff
      have : (2 ^ 52 + (f' + 1)) * d ≤ (2 ^ 52 + f) * d := Nat.mul_le_mul_right d (by omega)
      have : (2 ^ 52 + (f' + 1)) * d = (2 ^ 52 + f') * d + d := by ring
      omega
    omega
  · have hdouble : n * 2 ^ (1023 - e) * 2 ≤ m * 2 ^ (1023 - e') := by
      rw [Nat.mul_assoc, ← Nat.pow_succ]
      exact Nat.mul_le_mul hnm (Nat.pow_le_pow_right (by decide) (by have := h.exponent_le; omega))
    have hge := h.ratio_ge
    have hlt := h'.ratio_lt
    omega

theorem f64Ratio_mono {n m d : Nat} (hnm : n ≤ m) (hmd : m < d) (hd : d ≤ 2 ^ 31 - 1) :
    (f64Ratio n d).toNat ≤ (f64Ratio m d).toNat := by
  rcases Nat.eq_zero_or_pos n with rfl | hn
  · simp
  · obtain ⟨e, f, heq, h⟩ := f64Ratio_nearest hn (Nat.lt_of_le_of_lt hnm hmd) hd
    obtain ⟨e', f', heq', h'⟩ := f64Ratio_nearest (Nat.lt_of_lt_of_le hn hnm) hmd hd
    rw [heq, heq']
    exact h.mono h' hnm

/-- No ratio below 1 maps to 1.0 (R108). -/
theorem f64Ratio_lt_one {n d : Nat} (hnd : n < d) (hd : d ≤ 2 ^ 31 - 1) : (f64Ratio n d).toNat < 0x3FF0000000000000 := by
  rcases Nat.eq_zero_or_pos n with rfl | hn
  · simp
  · obtain ⟨e, f, heq, h⟩ := f64Ratio_nearest hn hnd hd
    have he := h.exponent_le
    have hf := h.fraction_lt
    omega

end Sys2Proof.Machine

namespace Sys2Proof.Proofs

open Sys2Proof.Machine Sys2Proof.Claims

/-- Settles O29: the pattern is made of the fields of the nearest number. -/
theorem dxUnitMappingRoundsToNearest : Obligations.DxUnitMappingRoundsToNearest := by
  refine ⟨f64Ratio_zero, fun n d hn hnd hd => ?_⟩
  obtain ⟨e, f, heq, h⟩ := f64Ratio_nearest hn hnd hd
  exact ⟨e, f, heq, h.fraction_lt, h.exponent_ge, h.exponent_le, h.ratio_ge, h.ratio_lt, h.above_lt, h.below_lt⟩

/-- Settles O30: the fields order as the ratios do, and a value of the recurrence is below the modulus, so its ratio is
below 1. -/
theorem dxUnitOutputsAreMonotoneAndBelowOne : Obligations.DxUnitOutputsAreMonotoneAndBelowOne :=
  ⟨fun _ _ _ => f64Ratio_mono, fun s hv h =>
    ⟨_, _, exec_dxNextUnit_of_live hv h, responds_respond rfl _ (Nat.le_refl 1),
      f64Ratio_lt_one h.value_lt (Nat.le_sub_one_of_lt s.dx.pp.isLt)⟩⟩

end Sys2Proof.Proofs
end

section
/-!
PROOFS. The life of a CM engine but its steps: the multiplier check (`41_combined_engine.md` R140), the unit that seeding
leaves (R144 to R148), and its destruction (R168).
-/

namespace Sys2Proof.Machine

open Sys2Proof.Claims

/-! The check (R140). -/

theorem cmCheck_zero_left (bb2 : Word) : cmCheck (0 : Word).toNat bb2.toNat = some 0 := if_pos rfl

theorem cmCheck_zero_right {bb1 : Word} (h : bb1 ≠ 0) : cmCheck bb1.toNat (0 : Word).toNat = some 1 := by
  exact (if_neg (BitVec.toNat_ne_iff_ne.2 h)).trans (if_pos rfl)

/-- Both seeding commands fail with the detail that `cmCheck` finds. -/
theorem cmInit_fails {bb1 bb2 : Word} {detail : BitVec 8} (h : cmCheck bb1.toNat bb2.toNat = some detail) (s : State)
    (seed : Word) :
    Fails s (exec (.cmInitSeed bb1 bb2 seed) s) 2 detail.toNat 0x11 ∧
      Fails s (exec (.cmInitEnt bb1 bb2) s) 2 detail.toNat 0x12 :=
  ⟨fails_of_errorOf (i := .cmInitSeed bb1 bb2 seed) (e := .invalidParameter) (by rw [errorOf, h]; rfl),
    fails_of_errorOf (i := .cmInitEnt bb1 bb2) (e := .invalidParameter) (by rw [errorOf, h]; rfl)⟩

/-! The parts of a seeded unit as numbers. -/

/-- `pcg_lcg` is that of R143. -/
theorem pcgLcg_toNat_eq (st inc : Wide) : (pcgLcg st inc).toNat = pcgLcgNat st.toNat inc.toNat := pcgLcg_toNat st inc

/-- The state of `pcg_seed` (R144). -/
theorem pcgSeedState_toNat (w0 w1 : Word) (inc : Wide) :
    (pcgSeedState w0 w1 inc).toNat =
      pcgLcgNat ((pcgLcgNat 0 inc.toNat + (w0.toNat * 2 ^ 64 + w1.toNat)) % 2 ^ 128) inc.toNat := by
  rw [pcgSeedState, pcgLcg_toNat_eq, BitVec.toNat_add, pcgLcg_toNat_eq, Sys2Proof.BitVec.toNat_append_eq]
  rfl

theorem laneStart_toNat (w : Word) : (laneStart w).toNat = w.toNat % (2 ^ 64 - 2) + 1 := by
  rw [laneStart, BitVec.toNat_ofNat, Nat.mod_eq_of_lt (by omega)]

theorem laneCarry_toNat (w bb : Word) : (laneCarry w bb).toNat = w.toNat % bb.toNat := by
  rw [laneCarry, BitVec.toNat_ofNat, Nat.mod_eq_of_lt (Nat.lt_of_le_of_lt (Nat.mod_le _ _) w.isLt)]

theorem laneApart_toNat (x1 c1 x2 c2 : Word) :
    (laneApart x1 c1 x2 c2).toNat = laneX2Nat x1.toNat c1.toNat x2.toNat c2.toNat := by
  unfold laneApart laneX2Nat
  simp only [BitVec.toNat_inj]
  split
  · split
    · exact BitVec.toNat_add_of_lt (by simp; omega)
    · rfl
  · rfl

/-- The unit made of eight source words is that of R144, R147 and R148. -/
theorem cmSeeded_holds {bb1 bb2 : Word} {ws : List Word} {w : Nat → Nat}
    (hw : ∀ i, i < 8 → (ws.getD i 0).toNat = w i) :
    CmHolds (cmSeeded bb1 bb2 ws) bb1.toNat bb2.toNat w := by
  have hinc : (pcgSeedInc (ws.getD 2 0) (ws.getD 3 0)).toNat = pcgIncNat w := by
    rw [pcgSeedInc_toNat, hw 2 (by decide), hw 3 (by decide), pcgIncNat]
  refine ⟨rfl, ?_, hinc, ?_, ?_, ?_, ?_, rfl, rfl⟩
  · show (pcgSeedState _ _ _).toNat = _
    rw [pcgSeedState_toNat, hinc, hw 0 (by decide), hw 1 (by decide), pcgStateNat]
  · exact (laneStart_toNat _).trans (by rw [hw 4 (by decide)])
  · exact (laneCarry_toNat _ _).trans (by rw [hw 5 (by decide)])
  · refine (laneApart_toNat _ _ _ _).trans ?_
    rw [laneStart_toNat, laneCarry_toNat, laneStart_toNat, laneCarry_toNat, hw 4 (by decide), hw 5 (by decide),
      hw 6 (by decide), hw 7 (by decide)]
  · exact (laneCarry_toNat _ _).trans (by rw [hw 7 (by decide)])

/-- The adjustment leaves lane 2 apart from lane 1 (R147). -/
theorem laneApart_ne (x1 c1 x2 c2 : Word) : (x1, c1) ≠ (laneApart x1 c1 x2 c2, c2) := by
  intro heq
  obtain ⟨hx, rfl⟩ := Prod.mk.inj heq
  unfold laneApart at hx
  split at hx
  · next hsame =>
    obtain ⟨rfl, -⟩ := hsame
    split at hx
    · bv_omega
    · next hlast => exact hlast (by rw [hx]; decide)
  · next hdiff => exact hdiff ⟨hx.symm, rfl⟩

end Sys2Proof.Machine

namespace Sys2Proof.Proofs

open Sys2Proof.Machine Sys2Proof.Claims

/-- Settles O32: both commands end in the error that `cmCheck` finds. -/
theorem cmInitChecksItsMultipliersInOrder : Obligations.CmInitChecksItsMultipliersInOrder := by
  refine fun s bb1 bb2 seed => ⟨?_, ?_⟩
  · rintro rfl
    exact cmInit_fails (detail := 0) (cmCheck_zero_left bb2) s seed
  · rintro h1 rfl
    exact cmInit_fails (detail := 1) (cmCheck_zero_right h1) s seed

/-- Settles O33: the check passes, and the unit is that of the expansion words. -/
theorem cmInitSeedFillsTheUnit : Obligations.CmInitSeedFillsTheUnit := fun _ _ _ _ h1 h2 =>
  ⟨_, (CmEffect.seed (cmCheck_eq_none_iff_ne_zero.2 ⟨h1, h2⟩)).exec, cmSeeded_holds fun _ => seedwords_getD_toNat,
    responds_respond rfl _ (Nat.zero_le 1), rfl⟩

/-- Settles O34: the check passes, and the unit is that of the first eight entropy words. -/
theorem cmInitEntFillsTheUnit : Obligations.CmInitEntFillsTheUnit := by
  intro s bb1 bb2 h1 h2 hn
  have hdrawn (i : Nat) (hi : i < 8) : ((s.entropyIn.take 8).getD i 0).toNat = (s.entropyIn.getD i 0).toNat := by
    rw [List.getD_eq_getElem?_getD, List.getElem?_take_of_lt hi, List.getD_eq_getElem?_getD]
  exact ⟨_, (CmEffect.ent (cmCheck_eq_none_iff_ne_zero.2 ⟨h1, h2⟩) hn).exec, cmSeeded_holds hdrawn,
    responds_respond rfl _ (Nat.zero_le 1), rfl⟩

/-- Settles O35: the adjustment moves lane 2 off lane 1 and within its range, which no fixed point meets. -/
theorem lanesNeverStartAlikeOrDegenerate : Obligations.LanesNeverStartAlikeOrDegenerate := by
  intro bb1 bb2 ws h1 h2
  obtain ⟨-, -, -, hc1, hc2, hlane1, hlane2⟩ := cmSeeded_live h1 h2 ws
  obtain ⟨hmin1, hmax1⟩ := laneStart_range (ws.getD 4 0)
  obtain ⟨hmin2, hmax2⟩ := laneApart_range (laneStart_range (ws.getD 6 0))
  exact ⟨laneApart_ne _ _ _ _, ⟨hmin1, hmax1, hc1, hlane1⟩, hmin2, hmax2, hc2, hlane2⟩

/-- Settles O38: the cleared unit, whatever the state. -/
theorem cmClrZeroesTheUnit : Obligations.CmClrZeroesTheUnit :=
  fun _ => ⟨_, CmEffect.clr.exec, rfl, rfl, rfl, rfl, rfl, rfl, rfl, rfl, rfl, responds_respond rfl _ (Nat.zero_le 1), rfl⟩

end Sys2Proof.Proofs
end

section
/-!
PROOFS. The two output commands of the CM unit (`41_combined_engine.md` R150 to R154, R164, R166).
-/

namespace Sys2Proof.Machine

open Sys2Proof.Claims

@[simp] theorem cmAdvance_pcgState (c : CmUnit) : (cmAdvance c).pcgState = pcgLcg c.pcgState c.pcgInc := by rw [cmAdvance]

/-- `pcg_out` is that of R143. -/
theorem pcgOut_toNat_eq (st : Wide) : (pcgOut st).toNat = pcgOutNat st.toNat := pcgOut_toNat st

/-- The output of a step is that of R154. -/
theorem cmOutput_cmAdvance_toNat (c : CmUnit) : (cmOutput (cmAdvance c)).toNat = cmOutNat c := by
  rw [cmOutput, BitVec.toNat_add, BitVec.toNat_add, cmAdvance_pcgState, cmAdvance_x1, cmAdvance_x2, pcgOut_toNat_eq,
    pcgLcg_toNat_eq, laneLow_toNat, laneLow_toNat, cmOutNat, laneT, laneT]

/-- `CM.NEXT.RAW` on a configured unit (R164). -/
theorem exec_cmNextRaw_of_configured {s : State} (hv : s.cm.v = true) :
    exec .cmNextRaw s =
      .next ((s.setCm (cmAdvance s.cm)).respond Opcode.cmNextRaw.code [cmOutput (cmAdvance s.cm)]) :=
  exec_of_executed (.cm (.next .raw hv))

/-- `CM.NEXT.UNIT` on a configured unit (R166). -/
theorem exec_cmNextUnit_of_configured {s : State} (hv : s.cm.v = true) :
    exec .cmNextUnit s =
      .next ((s.setCm (cmAdvance s.cm)).respond Opcode.cmNextUnit.code [f64Top53 (cmOutput (cmAdvance s.cm))]) :=
  exec_of_executed (.cm (.next .unit hv))

/-- Whatever it answers, a command that wrote the advanced unit made the step of R154. -/
theorem cmStepped_respond (s : State) (op : BitVec 8) (data : List Word) :
    CmStepped s ((s.setCm (cmAdvance s.cm)).respond op data) := by
  rw [State.respond_setCm]
  refine ⟨rfl, ?_, ?_, ?_, ?_, ?_⟩
  · rw [cmAdvance_pcgState, pcgLcg_toNat_eq]
  · rw [cmAdvance_x1, laneLow_toNat, laneT]
  · rw [cmAdvance_c1, laneHigh_toNat, laneT]
  · rw [cmAdvance_x2, laneLow_toNat, laneT]
  · rw [cmAdvance_c2, laneHigh_toNat, laneT]

end Sys2Proof.Machine

namespace Sys2Proof.Proofs

open Sys2Proof.Machine Sys2Proof.Claims

/-- Settles O36: the unit left is `cmAdvance`, and its output is the value of R154. -/
theorem cmNextRawMakesTheStep : Obligations.CmNextRawMakesTheStep := by
  intro s hv
  rw [← cmOutput_cmAdvance_toNat]
  exact ⟨_, exec_cmNextRaw_of_configured hv, cmStepped_respond s _ _,
    responds_respond (State.setCm_respOut _ _) _ (Nat.le_refl 1)⟩

/-- Settles O37: both commands leave `cmAdvance`. -/
theorem cmNextUnitMakesTheSameStep : Obligations.CmNextUnitMakesTheSameStep := by
  intro s hv
  rw [← cmOutput_cmAdvance_toNat, BitVec.ofNat_toNat, BitVec.setWidth_eq]
  exact ⟨_, _, exec_cmNextUnit_of_configured hv, exec_cmNextRaw_of_configured hv,
    (State.respond_cm _ _ _).trans (State.respond_cm _ _ _).symm, cmStepped_respond s _ _,
    responds_respond (State.setCm_respOut _ _) _ (Nat.le_refl 1)⟩

end Sys2Proof.Proofs
end

section
/-!
PROOFS. The unit-interval mapping of the CM unit (`41_combined_engine.md` R155): the fields of the pattern are those of the top
53 bits, exactly.
-/

namespace Sys2Proof.Machine

open Sys2Proof.Claims

/-- With no top bit set the pattern is +0.0. -/
theorem f64Top53_of_lt {out : Word} (h : out.toNat < 2 ^ 11) : f64Top53 out = 0 := by
  unfold f64Top53
  rw [Nat.shiftRight_eq_div_pow, Nat.div_eq_of_lt h]
  rfl

/-- A number of at most 53 bits, moved up until its leading bit stands at place 52. -/
theorem mul_two_pow_sub_log2_bounds {m : Nat} (h0 : m ≠ 0) (h : m < 2 ^ 53) :
    Nat.log2 m ≤ 52 ∧ 2 ^ 52 ≤ m * 2 ^ (52 - Nat.log2 m) ∧ m * 2 ^ (52 - Nat.log2 m) < 2 ^ 53 := by
  have he : Nat.log2 m ≤ 52 := Nat.le_of_lt_succ ((Nat.log2_lt h0).2 h)
  refine ⟨he, ?_, ?_⟩
  · calc 2 ^ 52 = 2 ^ Nat.log2 m * 2 ^ (52 - Nat.log2 m) := by rw [← Nat.pow_add, Nat.add_sub_cancel' he]
      _ ≤ m * 2 ^ (52 - Nat.log2 m) := Nat.mul_le_mul_right _ (Nat.log2_self_le h0)
  · calc m * 2 ^ (52 - Nat.log2 m) < 2 ^ (Nat.log2 m + 1) * 2 ^ (52 - Nat.log2 m) :=
          Nat.mul_lt_mul_of_pos_right Nat.lt_log2_self (Nat.two_pow_pos _)
      _ = 2 ^ 53 := by rw [← Nat.pow_add, show Nat.log2 m + 1 + (52 - Nat.log2 m) = 53 by omega]

/-- With a top bit set the pattern has the exponent and the fraction of the top 53 bits, with nothing rounded (R155). -/
theorem f64Top53_exact {out : Word} (h : 2 ^ 11 ≤ out.toNat) :
    ∃ e f : Nat, (f64Top53 out).toNat = e * 2 ^ 52 + f ∧ f < 2 ^ 52 ∧ 970 ≤ e ∧ e ≤ 1022 ∧
      2 ^ 52 + f = out.toNat / 2 ^ 11 * 2 ^ (1022 - e) := by
  obtain ⟨m, hm⟩ : ∃ m, out.toNat / 2 ^ 11 = m := ⟨_, rfl⟩
  have hpos : m ≠ 0 := by omega
  obtain ⟨he, hge, hlt⟩ := mul_two_pow_sub_log2_bounds hpos (by have := out.isLt; omega)
  have hpat : f64Top53 out = BitVec.ofNat 64 (((Nat.log2 m + 970) <<< 52) ||| (m * 2 ^ (52 - Nat.log2 m) - 2 ^ 52)) := by
    unfold f64Top53
    rw [Nat.shiftRight_eq_div_pow, hm, ← Nat.shiftLeft_eq m]
    exact if_neg hpos
  refine ⟨Nat.log2 m + 970, m * 2 ^ (52 - Nat.log2 m) - 2 ^ 52, ?_, by omega, by omega, by omega, ?_⟩
  · rw [hpat, f64Pattern_toNat (by omega) (by omega)]
  · rw [hm, show 1022 - (Nat.log2 m + 970) = 52 - Nat.log2 m by omega]
    omega

/-- No pattern exceeds that of `1 - 2^-53`. -/
theorem f64Top53_le (out : Word) : (f64Top53 out).toNat ≤ 0x3FEFFFFFFFFFFFFF := by
  rcases Nat.lt_or_ge out.toNat (2 ^ 11) with h | h
  · rw [f64Top53_of_lt h]
    decide
  · obtain ⟨e, f, heq, hf, -, he, -⟩ := f64Top53_exact h
    omega

end Sys2Proof.Machine

namespace Sys2Proof.Proofs

open Sys2Proof.Machine Sys2Proof.Claims

/-- Settles O31: below `2^11` no top bit is set; from there on the fields are those of the top 53 bits. -/
theorem cmUnitMappingIsExact : Obligations.CmUnitMappingIsExact := by
  refine fun out => ⟨f64Top53_of_lt, f64Top53_exact, f64Top53_le out, fun h => ?_⟩
  obtain rfl : out = 0xFFFFFFFFFFFFFFFF := BitVec.eq_of_toNat_eq h
  decide

end Sys2Proof.Proofs
end

section
/-!
PROOFS. State inspection (`42_inspection.md`): the selector map of R181 row by row, the answers of `RD.REG` (R182) and `RD.SLOT`
(R184), and the repetition of both (R180).
-/

namespace Sys2Proof.Machine

open Sys2Proof.Claims

/-! The selector map. -/

/-- The number of a need in the column "needs" of R181. -/
def Need.number : Need → Nat
  | .nothing => 0
  | .dxConfigured => 1
  | .cmConfigured => 2

theorem needHolds_number (s : State) (n : Need) : needHolds s n.number = n.met s := by cases n <;> rfl

theorem unitFlags_toNat (s : State) : (unitFlags s).toNat = s.cm.v.toNat <<< 1 ||| s.dx.v.toNat := by
  rw [unitFlags]
  cases s.cm.v <;> cases s.dx.v <;> rfl

theorem lowHalf_toNat (w : Wide) : (w.extractLsb' 0 64).toNat = w.toNat % 2 ^ 64 := by
  rw [BitVec.extractLsb'_toNat, Nat.shiftRight_zero]

theorem highHalf_toNat (w : Wide) : (w.extractLsb' 64 64).toNat = w.toNat / 2 ^ 64 := by
  rw [BitVec.extractLsb'_toNat, Nat.shiftRight_eq_div_pow, Nat.mod_eq_of_lt (by have := w.isLt; omega)]

/-- The row of R181 for a register. -/
def Selector.row (s : State) (r : Selector) : Nat × Nat × Nat := (r.code.toNat, r.need.number, (r.value s).toNat)

/-- The map as R181 lists it is the list of those rows. -/
theorem selectorMap_eq (s : State) : selectorMap s = Selector.all.map (Selector.row s) := by
  simp (disch := decide) only [selectorMap, Selector.all, List.map_cons, List.map_nil, Selector.row, Selector.code,
    Selector.need, Need.number, Selector.value, unitFlags_toNat, lowHalf_toNat, highHalf_toNat, BitVec.toNat_setWidth_of_le]
  rfl

/-- The map lists for a selector the row of the register it names, and nothing else. -/
theorem mem_selectorMap {s : State} {sel : Index} {need value : Nat} :
    (sel.toNat, need, value) ∈ selectorMap s ↔
      ∃ r, Selector.ofCode sel = some r ∧ r.need.number = need ∧ (r.value s).toNat = value := by
  rw [selectorMap_eq, List.mem_map]
  constructor
  · rintro ⟨r, -, hr⟩
    simp only [Selector.row, Prod.mk.injEq, BitVec.toNat_inj] at hr
    obtain ⟨rfl, hneed, hvalue⟩ := hr
    exact ⟨r, r.ofCode_code, hneed, hvalue⟩
  · rintro ⟨r, hr, rfl, rfl⟩
    exact ⟨r, r.mem_all, by rw [Selector.row, Selector.code_of_ofCode hr]⟩

/-! The answers. -/

/-- `RD.SLOT` of a live slot (R184). -/
theorem rdSlot_answers {s : State} {i : Index} (hv : s.dx.v = true) (hi : i.toNat < s.dx.kk.toNat)
    (hk : s.dx.kk.toNat ≤ s.kkMax.toNat) :
    ∃ t, exec (.rdSlot i) s = .next t ∧ Responds s t 0 0 0x22 [(s.dx.slots.read i.toNat).toNat] ∧ OnlyResponse s t := by
  have hnone : errorOf s (.rdSlot i) = none := by simp [errorOf, hv, hi]
  rw [← BitVec.toNat_setWidth_of_le (show 31 ≤ 64 by decide)]
  exact ⟨_, (ReadValue.slot (Nat.lt_of_lt_of_le hi hk)).exec hnone, responds_respond rfl _ (Nat.le_refl 1), rfl⟩

/-! Repetition. -/

theorem State.pushResponse_nil (s : State) : s.pushResponse [] = s := by rw [State.pushResponse, List.append_nil]

theorem State.pushResponse_append (s : State) (vs ws : List Word) :
    (s.pushResponse vs).pushResponse ws = s.pushResponse (vs ++ ws) := by
  simp only [State.pushResponse, List.append_assoc]

/-- No command looks at the response queue for its error. -/
theorem errorOf_pushResponse (s : State) (vs : List Word) (i : Instr) : errorOf (s.pushResponse vs) i = errorOf s i := by
  cases i <;> rfl

theorem ReadValue.pushResponse {s : State} {i : Instr} {w : Word} (h : ReadValue s i w) (vs : List Word) :
    ReadValue (s.pushResponse vs) i w := by
  cases h with
  | reg h => exact .reg h
  | slot h => exact .slot h

/-- An inspection command that goes on sends the same words whatever the response queue holds. -/
theorem Executed.pushResponse_of_isRead {i : Instr} {s t : State} (h : Executed s i t) (hi : isRead i = true) :
    ∃ r, ∀ vs, exec i (s.pushResponse vs) = .next (s.pushResponse (vs ++ r)) := by
  cases h with
  | @error e detail h =>
    refine ⟨[statusWord e.code detail i.opcode.code s.dx.v s.cm.v 0], fun vs => ?_⟩
    rw [← errorOf_pushResponse s vs] at h
    rw [exec_of_errorOf h, State.raise, State.pushResponse_append, State.pushResponse_dx, State.pushResponse_cm]
  | @read w h he =>
    refine ⟨[statusWord 0 0 i.opcode.code s.dx.v s.cm.v [w].length, w], fun vs => ?_⟩
    rw [← errorOf_pushResponse s vs] at he
    rw [(h.pushResponse vs).exec he, State.respond, State.pushResponse_append, State.pushResponse_dx, State.pushResponse_cm]
  | dx h => exact absurd hi (by simp [h.kind])
  | cm h => exact absurd hi (by simp [h.kind])
  | @waits c hc => exact absurd hi (by simp [← hc, c.isRead_instr])

/-- A command that sends the words `r` whatever the response queue holds, repeated, sends them as often. -/
theorem execTimes_pushResponse {i : Instr} {s : State} {r : List Word}
    (h : ∀ vs, exec i (s.pushResponse vs) = .next (s.pushResponse (vs ++ r))) (k : Nat) (vs : List Word) :
    execTimes i k (s.pushResponse vs) = some (s.pushResponse (vs ++ (List.replicate k r).flatten)) := by
  induction k generalizing vs with
  | zero => rw [execTimes, List.replicate_zero, List.flatten_nil, List.append_nil]
  | succ k ih => rw [execTimes, h, List.replicate_succ, List.flatten_cons, ← List.append_assoc]; exact ih _

/-- A command that stops can be executed no more than zero times. -/
theorem eq_of_execTimes_of_stops {i : Instr} {s t : State} {k : Nat} (hstop : ∀ u, exec i s ≠ .next u)
    (h : execTimes i k s = some t) : t = s := by
  cases k with
  | zero => exact (Option.some.inj h).symm
  | succ k =>
    rw [execTimes] at h
    split at h
    · next u hu => exact absurd hu (hstop u)
    · cases h
    · cases h

end Sys2Proof.Machine

namespace Sys2Proof.Proofs

open Sys2Proof.Machine Sys2Proof.Claims

/-- Settles O40: the map is made of the rows of the registers, and a selector that names none is in no row. -/
theorem rdRegFollowsTheSelectorMap : Obligations.RdRegFollowsTheSelectorMap := by
  refine fun s sel => ⟨fun need value hmem hneed => ?_, fun need value hmem hneed => ?_, fun hmem => ?_⟩
  · obtain ⟨r, hr, rfl, rfl⟩ := mem_selectorMap.1 hmem
    exact rdReg_answers hr (needHolds_number s r.need ▸ hneed)
  · obtain ⟨r, hr, rfl, rfl⟩ := mem_selectorMap.1 hmem
    rw [needHolds_number] at hneed
    exact fails_of_errorOf (e := .notConfigured) (detail := 0) (by simp [errorOf, hr, hneed])
  · cases hr : Selector.ofCode sel with
    | none => exact fails_of_errorOf (e := .badSelector) (detail := 0) (by simp [errorOf, hr])
    | some r => exact absurd (mem_selectorMap.2 ⟨r, hr, rfl, rfl⟩) (hmem _ _)

/-- Settles O41: the two checks in their order, and a live slot lies in the slot space. -/
theorem rdSlotReadsTheLiveSlots : Obligations.RdSlotReadsTheLiveSlots := by
  refine fun s i hk => ⟨fun hv => ?_, fun hv hi => ?_, fun hv hi => rdSlot_answers hv hi hk⟩
  · exact fails_of_errorOf (e := .notConfigured) (detail := 0) (by simp [errorOf, hv])
  · exact fails_of_errorOf (e := .badSelector) (detail := 0) (by simp [errorOf, hv, hi])

/-- Settles O42: the response does not depend on the queue it joins, so each execution adds the same one. -/
theorem readsHaveNoSideEffect : Obligations.ReadsHaveNoSideEffect := by
  intro i s t k hi h
  by_cases hgo : ∃ u, exec i s = .next u
  · obtain ⟨u, hu⟩ := hgo
    obtain ⟨r, hr⟩ := (executed_of_exec hu).pushResponse_of_isRead hi
    have ht := execTimes_pushResponse hr k []
    have hs := hr []
    rw [State.pushResponse_nil] at ht hs
    obtain rfl := Option.some.inj (ht.symm.trans h)
    refine ⟨rfl, fun u' hu' => ⟨r, ?_, rfl⟩⟩
    cases hs.symm.trans hu'
    rfl
  · obtain rfl := eq_of_execTimes_of_stops (not_exists.1 hgo) h
    exact ⟨rfl, fun u hu => absurd ⟨u, hu⟩ hgo⟩

end Sys2Proof.Proofs
end

section
/-!
PROOFS. Errors and stops (`60_exceptions.md` R200 to R206): an error writes nothing but its status word, a unit that is not
configured is an error, and nothing stops a block that meets the invariant, which every reachable block does.
-/

namespace Sys2Proof.Machine

open Sys2Proof.Claims

/-! What an error leaves (R203). -/

/-- An error is answered by its status word alone. -/
theorem data_eq_nil_of_responds_raise {s : State} {op detail : BitVec 8} {e : ErrorCode} {ecode edetail opecho : Nat}
    {data : List Nat} (h : Responds s (s.raise op e detail) ecode edetail opecho data) : data = [] := by
  obtain ⟨ws, hws, hmap⟩ := h
  obtain rfl := List.append_cancel_left hws
  exact (List.cons.inj hmap).2.symm

/-- A packet that answers an error code ended in an error, legal or not. -/
theorem eq_raise_of_error_response {p : Packet} {s t : State} (h : runPacket p s = .next t)
    {ecode edetail opecho : Nat} {data : List Nat} (hpos : 0 < ecode) (hlt : ecode < 2 ^ 8)
    (hr : Responds s t ecode edetail opecho data) : ∃ op e detail, t = s.raise op e detail := by
  unfold runPacket at h
  split at h
  · obtain ⟨e, detail, -, rfl⟩ := (executed_of_exec h).of_error_response hpos hlt hr
    exact ⟨_, e, detail, rfl⟩
  · cases h
    exact ⟨_, _, _, rfl⟩

/-- A command that has sent nothing wrote neither unit. -/
theorem Executed.units_eq_of_silent {i : Instr} {s t : State} (h : Executed s i t) (hsilent : t.respOut = s.respOut) :
    t.dx = s.dx ∧ t.cm = s.cm := by
  cases h with
  | error | waits | read => exact ⟨rfl, rfl⟩
  | dx | cm => exact absurd hsilent (by simp)

/-! Nothing stops. -/

/-- A command that draws entropy and has passed its check ends or waits (R227). -/
theorem exists_exec_of_checked {s : State} {c : EntropyCmd} (h : c.checked s.kkMax.toNat) :
    ∃ t, exec c.instr s = .next t := by
  by_cases hn : s.entropyIn.length < c.needs
  · exact ⟨_, exec_of_checked h hn⟩
  · have henough := Nat.le_of_not_lt hn
    cases c with
    | dxInit => exact ⟨_, (DxEffect.ent h henough).exec⟩
    | cmInit => exact ⟨_, (CmEffect.ent h henough).exec⟩

/-- On a DX unit that meets its invariant every command gives a next state: one without an error meets what its effect asks
for, and R28 puts every slot it names in the slot space (R51). -/
theorem exists_exec {s : State} (hdx : s.dx.Inv s.kkMax.toNat) (i : Instr) : ∃ t, exec i s = .next t := by
  cases he : errorOf s i with
  | some e => exact ⟨_, exec_of_errorOf he⟩
  | none =>
    cases i with
    | dxInitSeed => exact ⟨_, (DxEffect.seed (Option.map_eq_none_iff.1 he)).exec⟩
    | dxInitEnt bb pp kk ss => exact exists_exec_of_checked (c := .dxInit bb pp kk ss) (Option.map_eq_none_iff.1 he)
    | dxNextRaw =>
      have hv : s.dx.v = true := by simpa [errorOf] using he
      exact ⟨_, exec_dxNextRaw_of_live hv (hdx.live hv)⟩
    | dxNextUnit =>
      have hv : s.dx.v = true := by simpa [errorOf] using he
      exact ⟨_, exec_dxNextUnit_of_live hv (hdx.live hv)⟩
    | cmInitSeed => exact ⟨_, (CmEffect.seed (Option.map_eq_none_iff.1 he)).exec⟩
    | cmInitEnt bb1 bb2 => exact exists_exec_of_checked (c := .cmInit bb1 bb2) (Option.map_eq_none_iff.1 he)
    | cmNextRaw => exact ⟨_, exec_cmNextRaw_of_configured (by simpa [errorOf] using he)⟩
    | cmNextUnit => exact ⟨_, exec_cmNextUnit_of_configured (by simpa [errorOf] using he)⟩
    | dxClr | cmClr => exact ⟨_, rfl⟩
    | rdReg sel =>
      cases hr : Selector.ofCode sel with
      | none => simp [errorOf, hr] at he
      | some r => exact ⟨_, (ReadValue.reg hr).exec he⟩
    | rdSlot i =>
      obtain ⟨hv, hi⟩ : s.dx.v = true ∧ i.toNat < s.dx.kk.toNat := by simpa [errorOf, ite_eq_iff] using he
      exact ⟨_, (ReadValue.slot (Nat.lt_of_lt_of_le hi (hdx.live hv).kk_le)).exec he⟩

theorem exists_runPacket {s : State} (hdx : s.dx.Inv s.kkMax.toNat) (p : Packet) : ∃ t, runPacket p s = .next t := by
  cases hd : decode p with
  | ok i => exact runPacket_of_decode hd s ▸ exists_exec hdx i
  | error e =>
    obtain ⟨t, ht, -⟩ := fails_of_decode_error hd s
    exact ⟨t, ht⟩

/-- A command that gives a next state starts or is put off (R229). -/
theorem exists_startIfRoom_next (s t : State) : ∃ u, startIfRoom s (.next t) = .next u := by
  rw [startIfRoom]
  split <;> exact ⟨_, rfl⟩

theorem goesOn_of_dx_inv {s : State} (hdx : s.dx.Inv s.kkMax.toNat) : GoesOn s := by
  unfold GoesOn
  cases hr : s.rst with
  | true => exact ⟨_, by rw [step, hr, if_pos rfl]⟩
  | false =>
    cases hw : s.wait with
    | some w => exact step_of_wait hr hw ▸ exists_exec (s := s.resumeWith w) hdx _
    | none =>
      rw [step_of_no_wait hr hw]
      rcases fetch_cases s with hf | ⟨_, _, -, -, hf⟩ | ⟨h, ws, -, -, hf⟩ <;> rw [hf]
      · exact ⟨_, rfl⟩
      · exact ⟨_, rfl⟩
      · obtain ⟨t, ht⟩ := exists_runPacket (s := { s with parser := .header, cmdIn := ws.drop (Header.narg h).toNat })
          hdx ⟨h, ws.take (Header.narg h).toNat⟩
        simp only [ht]
        exact exists_startIfRoom_next s t

/-! Every reachable block meets the invariant. -/

/-- What the outside does on the ports of R219 leaves the invariant, as long as it queues no response. -/
theorem State.Inv.of_ports {s : State} (hs : s.Inv) {cmdIn respOut entropyIn : List Word} {rst : Bool}
    (hle : respOut.length ≤ s.respOut.length) : State.Inv { s with cmdIn, respOut, entropyIn, rst } :=
  ⟨hs.kkMax_ge, hs.respCap_ge, Nat.le_trans hle hs.resp_fits, hs.dx, hs.cm, hs.parser, fun w hw =>
    have ⟨hchecked, hshort, hroom, hparser⟩ := hs.wait w hw
    ⟨hchecked, hshort, Nat.le_trans (Nat.succ_le_succ hle) hroom, hparser⟩⟩

theorem takeResponse_eq_some {s t : State} {w : Word} (h : s.takeResponse = some (w, t)) :
    ∃ ws, s.respOut = w :: ws ∧ t = { s with respOut := ws } := by
  unfold State.takeResponse at h
  split at h
  · cases h
  · next w ws hws => cases h; exact ⟨ws, hws, rfl⟩

theorem Reachable.inv {s : State} (h : Reachable s) : s.Inv := by
  induction h with
  | reset _ _ hk hr => exact resetWith_inv hk hr
  | step _ hstep ih => exact (stepped_of_step hstep).inv ih
  | send _ _ ih => exact ih.of_ports (Nat.le_refl _)
  | take _ htake ih =>
    obtain ⟨ws, hws, rfl⟩ := takeResponse_eq_some htake
    exact ih.of_ports (by simp [hws])
  | entropy _ _ ih => exact ih.of_ports (Nat.le_refl _)
  | assertReset _ ih | releaseReset _ ih => exact (applyReset_inv ih).of_ports (Nat.le_refl _)

end Sys2Proof.Machine

namespace Sys2Proof.Proofs

open Sys2Proof.Machine Sys2Proof.Claims

/-- Settles O11: an error code is sent by an error only, and a legal packet that sent nothing wrote neither unit. -/
theorem errorsWriteNothing : Obligations.ErrorsWriteNothing := by
  refine fun p s t h => ⟨fun ecode edetail opecho data hpos hlt _ _ hr => ?_, fun hsilent => ?_⟩
  · obtain ⟨op, e, detail, rfl⟩ := eq_raise_of_error_response h hpos hlt hr
    exact ⟨data_eq_nil_of_responds_raise hr, rfl⟩
  · unfold runPacket at h
    split at h
    · exact (executed_of_exec h).units_eq_of_silent hsilent
    · cases h
      exact ⟨rfl, rfl⟩

/-- Settles O46: the invariant of the DX unit shuts out the one fault, and whatever brings a block on keeps the invariant. -/
theorem noReachableStepStops : Obligations.NoReachableStepStops :=
  ⟨fun _ hs => goesOn_of_dx_inv hs.dx, fun _ h => ⟨h.inv, goesOn_of_dx_inv h.inv.dx⟩⟩

/-- Settles O25: the flag of its unit is the first thing each of the five commands looks at. -/
theorem unconfiguredUnitsAnswerNotConfigured : Obligations.UnconfiguredUnitsAnswerNotConfigured := by
  refine fun s => ⟨fun hv => ⟨?_, ?_, fun i => ?_⟩, fun hv => ⟨?_, ?_⟩⟩
  all_goals exact fails_of_errorOf (e := .notConfigured) (detail := 0) (by simp [errorOf, hv])

end Sys2Proof.Proofs
end

section
/-!
PROOFS. Reset and hazards (`70_reset_and_hazards.md`): reset (R220, R221), a command that waits for entropy (R227), a full
response queue (R229), and the ports of R219.
-/

namespace Sys2Proof.Machine

open Sys2Proof.Claims

/-! Reset (R220). -/

theorem step_of_rst {s : State} (hr : s.rst = true) : step s = .next s.applyReset := if_pos hr

/-- An entropy word that comes while no command waits is not used. -/
theorem deliverEntropy_of_no_wait {s : State} (hw : s.wait = none) (w : Word) : s.deliverEntropy w = s :=
  if_neg (by simp [State.entropyRequested, hw])

/-! The wait for entropy (R227). -/

/-- A waiting command that has passed its check and still lacks words goes on waiting, with those that have come. -/
theorem step_of_starved {s : State} {w : EntropyWait} (hr : s.rst = false) (hw : s.wait = some w)
    (hc : w.cmd.checked s.kkMax.toNat) (hn : w.drawn.length + s.entropyIn.length < w.cmd.needs) :
    step s = .next { s with wait := some ⟨w.cmd, w.drawn ++ s.entropyIn⟩, entropyIn := [] } := by
  have hshort : (s.resumeWith w).entropyIn.length < w.cmd.needs := by simpa using hn
  rw [step_of_wait hr hw]
  exact exec_of_checked (s := s.resumeWith w) hc hshort

/-- A command that leaves the block waiting, where none waited, is the one that waits. -/
theorem Executed.awaits {i : Instr} {s t : State} (h : Executed s i t) (hw : s.wait = none) (ht : t.wait ≠ none) :
    ∃ c : EntropyCmd, c.instr = i ∧ t = s.awaitEntropy c := by
  cases h with
  | @waits c hi => exact ⟨c, hi, rfl⟩
  | error | dx | cm | read => exact absurd hw ht

/-- Words that come to a command just begun to wait are as good as words that had stood behind those it took. -/
theorem resumeWith_awaitEntropy {s : State} (hw : s.wait = none) (c : EntropyCmd) (ws : List Word) :
    State.resumeWith { s.awaitEntropy c with entropyIn := ws } ⟨c, s.entropyIn⟩ =
      { s with entropyIn := s.entropyIn ++ ws } := by
  rw [hw]
  rfl

/-! The response queue (R229). -/

/-- Behind a full response queue no command starts. -/
theorem startIfRoom_of_full {s : State} (hfull : s.respOut.length = s.respCap) (t : State) :
    startIfRoom s (.next t) = .next s := by
  refine if_neg fun hroom => ?_
  obtain ⟨hone, -⟩ := roomFor_iff.1 hroom
  omega

/-! What a step does to the words on the channels (R56, R74). -/

theorem pendingWords_congr {s t : State} (hp : t.parser = s.parser) (hc : t.cmdIn = s.cmdIn) :
    t.pendingWords = s.pendingWords := by
  rw [State.pendingWords, hp, hc, State.pendingWords]

theorem pendingWords_of_header {s : State} (hp : s.parser = .header) : s.pendingWords = s.cmdIn := by
  rw [State.pendingWords, hp]

/-- A step with `rst` released queues response words behind those there are. -/
theorem Stepped.respOut_append {s t : State} (h : Stepped s t) (hr : s.rst = false) : ∃ r, t.respOut = s.respOut ++ r := by
  cases h with
  | reset hrst => exact absurd (hr.symm.trans hrst) (by decide)
  | idle | parsed => exact ⟨[], (List.append_nil _).symm⟩
  | packet _ _ _ _ hrun =>
    obtain ⟨-, -, -, -, -, r, hout, -⟩ := runPacket_frame hrun
    exact ⟨r, hout⟩
  | resumed _ _ hrun =>
    obtain ⟨-, -, -, -, -, r, hout, -⟩ := (ended_of_exec hrun).frame
    exact ⟨r, hout⟩

/-- A step with `rst` released takes no command word to execution, or exactly the next packet. -/
theorem Stepped.pendingWords_cases {s t : State} (h : Stepped s t) (hr : s.rst = false) :
    t.pendingWords = s.pendingWords ∨
      ∃ h ws, s.pendingWords = h :: ws ∧ nargNat h ≤ ws.length ∧ t.pendingWords = ws.drop (nargNat h) := by
  cases h with
  | reset hrst => exact absurd (hr.symm.trans hrst) (by decide)
  | idle => exact .inl rfl
  | @parsed h ws _ _ hws _ => exact .inl ((congrArg (h :: ·) (List.append_nil ws)).trans hws.symm)
  | @packet h ws _ _ _ hws hn hrun _ =>
    obtain ⟨hparser, hcmd, -⟩ := runPacket_frame hrun
    rw [Header.narg_toNat] at hn hcmd
    exact .inr ⟨h, ws, hws, hn, (pendingWords_of_header hparser).trans hcmd⟩
  | resumed _ _ hrun =>
    obtain ⟨hparser, hcmd, -⟩ := (ended_of_exec hrun).frame
    exact .inl (pendingWords_congr hparser hcmd)

end Sys2Proof.Machine

namespace Sys2Proof.Proofs

open Sys2Proof.Machine Sys2Proof.Claims

/-- Settles O21: by the invariant the waiting command has passed its check, so it goes on waiting. -/
theorem waitingBlockIsStuckUntilWordsCome : Obligations.WaitingBlockIsStuckUntilWordsCome := by
  intro s w hs hr hw hn
  have hstep := step_of_starved hr hw (hs.wait w hw).checked hn
  refine ⟨hstep, fun hempty => ?_, step_of_rst rfl⟩
  rw [hstep, hempty, List.append_nil, ← hw, ← hempty]

/-- Settles O22: the wait holds the words the command took, and the step puts the late ones behind them. -/
theorem lateEntropyGivesTheSameResult : Obligations.LateEntropyGivesTheSameResult := by
  intro i s t ws hr hw h ht
  obtain ⟨c, rfl, rfl⟩ := (executed_of_exec h).awaits hw ht
  rw [step_of_wait (s := { s.awaitEntropy c with entropyIn := ws }) hr rfl, resumeWith_awaitEntropy hw]

/-- Settles O45: the ports reach the channels and the pin alone, and reset meets the invariant. -/
theorem theOutsideKeepsTheInvariant : Obligations.TheOutsideKeepsTheInvariant := by
  refine fun s hs => ⟨fun w => hs.of_ports (Nat.le_refl _), fun w t htake => ?_, fun w => ?_,
    fun ws => hs.of_ports (Nat.le_refl _), (applyReset_inv hs).of_ports (Nat.le_refl _),
    (applyReset_inv hs).of_ports (Nat.le_refl _)⟩
  · obtain ⟨ws, hws, rfl⟩ := takeResponse_eq_some htake
    exact hs.of_ports (by simp [hws])
  · unfold State.deliverEntropy
    split
    · exact hs.of_ports (Nat.le_refl _)
    · exact hs

/-- Settles O50: the packet gives a next state, so a full queue puts it off, and two free places are enough for it. -/
theorem fullResponseQueueOnlyDelaysTheCommand : Obligations.FullResponseQueueOnlyDelaysTheCommand := by
  refine fun s p rest hs hidle hp => ⟨fun hfull => ?_, fun left hleft => ?_⟩
  · obtain ⟨t, ht⟩ := exists_runPacket (s := { s with cmdIn := rest }) hs.dx p
    rw [step_of_packetOfWords hidle hp, ht, startIfRoom_of_full hfull]
  · rw [step_of_packetOfWords (s := { s with respOut := left }) hidle hp]
    exact startIfRoom_of_room hleft rfl

/-- Settles O51: by the ways a step with `rst` released can take. -/
theorem noWordIsLostOrReordered : Obligations.NoWordIsLostOrReordered := fun _ _ _ hr h =>
  have hstepped := stepped_of_step h
  ⟨hstepped.respOut_append hr, hstepped.pendingWords_cases hr⟩

/-- Settles O20: a command whose check passes and which lacks words waits. -/
theorem starvedInitWaits : Obligations.StarvedInitWaits := fun _ =>
  ⟨fun bb pp kk ss hlegal => exec_of_checked (c := .dxInit bb pp kk ss) (dxCheck_eq_none_iff_legal.2 hlegal),
    fun bb1 bb2 h1 h2 => exec_of_checked (c := .cmInit bb1 bb2) (cmCheck_eq_none_iff_ne_zero.2 ⟨h1, h2⟩)⟩

/-- Settles O48: the step is `applyReset`, which leaves both units cleared, every channel empty and no command waiting. -/
theorem resetClearsTheBlock : Obligations.ResetClearsTheBlock := fun _ hr =>
  ⟨_, step_of_rst hr, rfl, rfl, rfl, rfl, rfl, rfl, fun _ => rfl, rfl, rfl, rfl, rfl, rfl, rfl, rfl, rfl, rfl, rfl, rfl, rfl,
    rfl, rfl, rfl, deliverEntropy_of_no_wait rfl⟩

/-- Settles O49: the two clears leave nothing but the channels to empty, and what they leave is not configured. -/
theorem resetIsBothClearsWithEmptyChannels : Obligations.ResetIsBothClearsWithEmptyChannels := by
  intro s
  obtain ⟨hdx, hcm⟩ := unconfiguredUnitsAnswerNotConfigured s.applyReset
  obtain ⟨hdxRaw, hdxUnit, -⟩ := hdx rfl
  exact ⟨⟨_, _, rfl, rfl, rfl⟩, hdxRaw, hdxUnit, hcm rfl⟩

end Sys2Proof.Proofs
end
